-- ==== Sys2Proof/Word.lean ====
section
/-! DEFINITION. The widths of the machine's values (spec/00_scope.md R5, R8): bytes, 16-bit words, register and key
numbers. -/

namespace Sys2Proof

/-- An unsigned byte: a data register, a timer, a memory cell (R8, R22). -/
abbrev Byte := BitVec 8

/-- A 16-bit value: PC, I, a return address, an instruction word (R25, R26, R29, R90). -/
abbrev Word := BitVec 16

/-- The number of a data register, V0 to VF (R22). -/
abbrev Reg := Fin 16

/-- The number of a keypad key, 0 to F (R36). -/
abbrev Key := Fin 16

/-- VF, register 15: an ordinary register and the flag output (R23). -/
abbrev vf : Reg := 15

end Sys2Proof
end

