-- ==== Sys2Proof/Syntax.lean ====
section
/-! DEFINITION. The instructions: one constructor per row of spec/opcode_table.json (spec/30_encoding.md R95), named
after the mnemonics of R100. Operands are those of R93: registers `x`, `y`, a nibble `n`, a byte `nn`, a 12-bit `nnn`. -/

namespace Sys2Proof

inductive Instr where
  /-- 00E0, CLS (R140). -/
  | cls
  /-- 00EE, RET (R161). -/
  | ret
  /-- 1nnn, JP nnn (R162). -/
  | jp (nnn : BitVec 12)
  /-- 2nnn, CALL nnn (R163). -/
  | call (nnn : BitVec 12)
  /-- 3xnn, SE Vx, nn (R165). -/
  | seByte (x : Reg) (nn : Byte)
  /-- 4xnn, SNE Vx, nn (R166). -/
  | sneByte (x : Reg) (nn : Byte)
  /-- 5xy0, SE Vx, Vy (R167). -/
  | seReg (x y : Reg)
  /-- 6xnn, LD Vx, nn (R193). -/
  | ldByte (x : Reg) (nn : Byte)
  /-- 7xnn, ADD Vx, nn (R194). -/
  | addByte (x : Reg) (nn : Byte)
  /-- 8xy0, LD Vx, Vy (R195). -/
  | ldReg (x y : Reg)
  /-- 8xy1, OR Vx, Vy (R196). -/
  | or (x y : Reg)
  /-- 8xy2, AND Vx, Vy (R197). -/
  | and (x y : Reg)
  /-- 8xy3, XOR Vx, Vy (R198). -/
  | xor (x y : Reg)
  /-- 8xy4, ADD Vx, Vy (R199). -/
  | addReg (x y : Reg)
  /-- 8xy5, SUB Vx, Vy (R200). -/
  | sub (x y : Reg)
  /-- 8xy6, SHR Vx, Vy (R201). -/
  | shr (x y : Reg)
  /-- 8xy7, SUBN Vx, Vy (R202). -/
  | subn (x y : Reg)
  /-- 8xyE, SHL Vx, Vy (R203). -/
  | shl (x y : Reg)
  /-- 9xy0, SNE Vx, Vy (R168). -/
  | sneReg (x y : Reg)
  /-- Annn, LD I, nnn (R230). -/
  | ldI (nnn : BitVec 12)
  /-- Bnnn, JP V0, nnn (R176). -/
  | jpV0 (nnn : BitVec 12)
  /-- Cxnn, RND Vx, nn (R207). -/
  | rnd (x : Reg) (nn : Byte)
  /-- Dxyn, DRW Vx, Vy, n (R143). -/
  | drw (x y : Reg) (n : BitVec 4)
  /-- Ex9E, SKP Vx (R260). -/
  | skp (x : Reg)
  /-- ExA1, SKNP Vx (R261). -/
  | sknp (x : Reg)
  /-- Fx07, LD Vx, DT (R263). -/
  | readDelay (x : Reg)
  /-- Fx0A, LD Vx, K (R264). -/
  | waitKey (x : Reg)
  /-- Fx15, LD DT, Vx (R265). -/
  | setDelay (x : Reg)
  /-- Fx18, LD ST, Vx (R266). -/
  | setSound (x : Reg)
  /-- Fx1E, ADD I, Vx (R231). -/
  | addI (x : Reg)
  /-- Fx29, LD F, Vx (R232). -/
  | glyph (x : Reg)
  /-- Fx33, LD B, Vx (R233). -/
  | bcd (x : Reg)
  /-- Fx55, LD [I], Vx (R234). -/
  | storeRegs (x : Reg)
  /-- Fx65, LD Vx, [I] (R235). -/
  | loadRegs (x : Reg)
  deriving DecidableEq, Repr

end Sys2Proof
end

