-- ==== Sys2Proof/Decode.lean ====
section
/-! DEFINITION. Decoding (spec/30_encoding.md R90 to R99, spec/40_cycle.md R123) and encoding (R101). -/

namespace Sys2Proof

/-- The fields of R90, all extracted from every word. -/
structure Fields where
  op  : BitVec 4
  x   : Reg
  y   : Reg
  n   : BitVec 4
  nn  : Byte
  nnn : BitVec 12
  deriving DecidableEq, Repr

/-- The pure, total decoder of R91: every 16-bit value has fields. -/
def fieldsOf (w : Word) : Fields where
  op  := w.extractLsb' 12 4
  x   := (w.extractLsb' 8 4).toFin
  y   := (w.extractLsb' 4 4).toFin
  n   := w.extractLsb' 0 4
  nn  := w.extractLsb' 0 8
  nnn := w.extractLsb' 0 12

/-- Why bytes are no instruction. -/
inductive DecodeError where
  /-- The word matches no category or sub-opcode (R96). -/
  | unknownOpcode (w : Word)
  /-- Fewer than the two bytes of an instruction (R90). -/
  | truncated
  deriving DecidableEq, Repr

/-- Category 0, dispatched on nnn (R94, R95). -/
def decodeCategory0 (f : Fields) : Option Instr :=
  if f.nnn = 0x0E0 then some .cls
  else if f.nnn = 0x0EE then some .ret
  else none

/-- Category 8, dispatched on n (R94, R95). -/
def decodeCategory8 (f : Fields) : Option Instr :=
  match f.n with
  | 0x0#4 => some (.ldReg f.x f.y)
  | 0x1#4 => some (.or f.x f.y)
  | 0x2#4 => some (.and f.x f.y)
  | 0x3#4 => some (.xor f.x f.y)
  | 0x4#4 => some (.addReg f.x f.y)
  | 0x5#4 => some (.sub f.x f.y)
  | 0x6#4 => some (.shr f.x f.y)
  | 0x7#4 => some (.subn f.x f.y)
  | 0xE#4 => some (.shl f.x f.y)
  | _ => none

/-- Category E, dispatched on nn (R94, R95). -/
def decodeCategoryE (f : Fields) : Option Instr :=
  if f.nn = 0x9E then some (.skp f.x)
  else if f.nn = 0xA1 then some (.sknp f.x)
  else none

/-- Category F, dispatched on nn (R94, R95). -/
def decodeCategoryF (f : Fields) : Option Instr :=
  if f.nn = 0x07 then some (.readDelay f.x)
  else if f.nn = 0x0A then some (.waitKey f.x)
  else if f.nn = 0x15 then some (.setDelay f.x)
  else if f.nn = 0x18 then some (.setSound f.x)
  else if f.nn = 0x1E then some (.addI f.x)
  else if f.nn = 0x29 then some (.glyph f.x)
  else if f.nn = 0x33 then some (.bcd f.x)
  else if f.nn = 0x55 then some (.storeRegs f.x)
  else if f.nn = 0x65 then some (.loadRegs f.x)
  else none

/-- The opcode map of R95: the instruction a word's fields select. Categories 5 and 9 do not look at n (R98). -/
def selectInstr (f : Fields) : Option Instr :=
  match f.op with
  | 0x0#4 => decodeCategory0 f
  | 0x1#4 => some (.jp f.nnn)
  | 0x2#4 => some (.call f.nnn)
  | 0x3#4 => some (.seByte f.x f.nn)
  | 0x4#4 => some (.sneByte f.x f.nn)
  | 0x5#4 => some (.seReg f.x f.y)
  | 0x6#4 => some (.ldByte f.x f.nn)
  | 0x7#4 => some (.addByte f.x f.nn)
  | 0x8#4 => decodeCategory8 f
  | 0x9#4 => some (.sneReg f.x f.y)
  | 0xA#4 => some (.ldI f.nnn)
  | 0xB#4 => some (.jpV0 f.nnn)
  | 0xC#4 => some (.rnd f.x f.nn)
  | 0xD#4 => some (.drw f.x f.y f.n)
  | 0xE#4 => decodeCategoryE f
  | _ => decodeCategoryF f

/-- Decode one instruction word, or say that it is unknown (R95, R96). -/
def decodeWord (w : Word) : Except DecodeError Instr :=
  match selectInstr (fieldsOf w) with
  | some i => .ok i
  | none => .error (.unknownOpcode w)

/-- The word of two consecutive bytes, the one at the lower address high (R60). -/
def wordOfBytes (hi lo : Byte) : Word := hi ++ lo

/-- The bytes of a word in address order (R60, R101). -/
def bytesOfWord (w : Word) : List Byte := [w.extractLsb' 8 8, w.extractLsb' 0 8]

/-- Decode the instruction at the front of a byte sequence and give the rest (R90, R99: two bytes each). -/
def decode : List Byte → Except DecodeError (Instr × List Byte)
  | hi :: lo :: rest =>
    match decodeWord (wordOfBytes hi lo) with
    | .ok i => .ok (i, rest)
    | .error e => .error e
  | _ => .error .truncated

/-! ### The encoder (R101) -/

/-- Shape A: `op` and a 12-bit address. -/
def wordA (op : BitVec 4) (nnn : BitVec 12) : Word := op ++ nnn

/-- Shapes XI and XS: `op`, a register, a byte. -/
def wordXI (op : BitVec 4) (x : Reg) (nn : Byte) : Word := op ++ BitVec.ofFin (w := 4) x ++ nn

/-- Shapes XY and XYN: `op`, two registers, a nibble. -/
def wordXY (op : BitVec 4) (x y : Reg) (n : BitVec 4) : Word :=
  op ++ BitVec.ofFin (w := 4) x ++ BitVec.ofFin (w := 4) y ++ n

/-- The word of an instruction (R92, R95, R101). -/
def encode : Instr → Word
  | .cls => 0x00E0
  | .ret => 0x00EE
  | .jp nnn => wordA 0x1 nnn
  | .call nnn => wordA 0x2 nnn
  | .seByte x nn => wordXI 0x3 x nn
  | .sneByte x nn => wordXI 0x4 x nn
  | .seReg x y => wordXY 0x5 x y 0x0
  | .ldByte x nn => wordXI 0x6 x nn
  | .addByte x nn => wordXI 0x7 x nn
  | .ldReg x y => wordXY 0x8 x y 0x0
  | .or x y => wordXY 0x8 x y 0x1
  | .and x y => wordXY 0x8 x y 0x2
  | .xor x y => wordXY 0x8 x y 0x3
  | .addReg x y => wordXY 0x8 x y 0x4
  | .sub x y => wordXY 0x8 x y 0x5
  | .shr x y => wordXY 0x8 x y 0x6
  | .subn x y => wordXY 0x8 x y 0x7
  | .shl x y => wordXY 0x8 x y 0xE
  | .sneReg x y => wordXY 0x9 x y 0x0
  | .ldI nnn => wordA 0xA nnn
  | .jpV0 nnn => wordA 0xB nnn
  | .rnd x nn => wordXI 0xC x nn
  | .drw x y n => wordXY 0xD x y n
  | .skp x => wordXI 0xE x 0x9E
  | .sknp x => wordXI 0xE x 0xA1
  | .readDelay x => wordXI 0xF x 0x07
  | .waitKey x => wordXI 0xF x 0x0A
  | .setDelay x => wordXI 0xF x 0x15
  | .setSound x => wordXI 0xF x 0x18
  | .addI x => wordXI 0xF x 0x1E
  | .glyph x => wordXI 0xF x 0x29
  | .bcd x => wordXI 0xF x 0x33
  | .storeRegs x => wordXI 0xF x 0x55
  | .loadRegs x => wordXI 0xF x 0x65

/-- The bytes of an instruction as a program image holds them (R101). -/
def encodeBytes (i : Instr) : List Byte := bytesOfWord (encode i)

/-- The bytes an instruction of `nbits` bits `w` has in memory: its bits above `nbits` zero, the word's high byte at
the lower address (R60). -/
def tableBytes (nbits w : Nat) : List Byte := bytesOfWord (BitVec.ofNat 16 (w % 2 ^ nbits))

/-- The instruction the decoder reads from a row of the opcode table, its word's bits numbered as R7 says. -/
def decodeTableWord (nbits w : Nat) : Option Instr :=
  match decode (tableBytes nbits w) with
  | .ok (i, _) => some i
  | .error _ => none

end Sys2Proof
end

