-- ==== Sys2Proof/Config.lean ====
section
/-! DEFINITION. What the spec fixes for one machine and leaves to its user: the shapes of memory and display
(spec/00_scope.md R5), the open parameters (R6) and the free values. -/

namespace Sys2Proof

/-- Memory: the bytes that differ from what an unlisted address reads as, addresses strictly rising (R39, R64). -/
abbrev Memory := List Host.Cell

/-- The display buffer: 64 columns of 32 rows, `D[c][r]` (R32). -/
abbrev Display := Vector (Vector Bool 32) 64

/-- BNNN_MODE: which of the source's two readings of Bnnn the machine follows (R6, R175, R176). -/
inductive BnnnMode where
  | postIncrement
  | absolute
  deriving DecidableEq, Repr

/-- VF_ORDER: what VF ends holding when a flag-writing 8xy* instruction also names it as destination (R6, R190). -/
inductive VfOrder where
  | flagLast
  | resultLast
  | any
  deriving DecidableEq, Repr

/-- INIT: a value for every piece of state to which the source gives no reset value (R6, R42). Its bytes at
0x050..0x09F are never seen: FONT is written over them (R42). -/
structure Init where
  v       : Vector Byte 16
  i       : Word
  mem     : Memory
  dt      : Byte
  st      : Byte
  keys    : Vector Bool 16
  display : Display
  redraw  : Bool
  deriving DecidableEq, Repr

/-- The parameters R6 gives the model as arguments, fixed for one machine. -/
structure Params where
  bnnnMode : BnnnMode
  vfOrder  : VfOrder
  font     : Vector Byte 80
  init     : Init
  deriving DecidableEq, Repr

/-- The random byte of the `n`-th tick, under no law (R207, R295): a free value. -/
opaque Config.randomByte : Nat → Byte

/-- The byte VF holds under VF_ORDER = Any, drawn at the `n`-th tick (R190): a free value. -/
opaque Config.anyByte : Nat → Byte

end Sys2Proof
end

