-- ==== Sys2Proof/Machine/Screen.lean ====
section
/-! DEFINITION. The display buffer's operations (spec/41_display.md R140 to R145): one pixel, a clear, and the XOR draw
with clipping and collision. -/

namespace Sys2Proof

/-- The pixel at column `c`, row `r`; off outside the 64 by 32 grid (R32). -/
def Display.pixel (d : Display) (c r : Nat) : Bool :=
  if h : c < 64 ∧ r < 32 then (d[c]'h.1)[r]'h.2 else false

/-- The display with the pixel at column `c`, row `r` toggled; unchanged outside the grid. -/
def Display.toggle (d : Display) (c r : Nat) : Display :=
  if h : c < 64 ∧ r < 32 then d.set c ((d[c]'h.1).set r (!(d[c]'h.1)[r]'h.2) h.2) h.1 else d

/-- Every pixel off (R140). -/
def Display.blank : Display := Vector.replicate 64 (Vector.replicate 32 false)

/-- Draw one sprite pixel at column `c`, row `r`: a 1 bit inside the grid toggles the pixel, and sets the collision if
the pixel was on; a 0 bit or a clipped pixel does nothing (R142, R144). -/
def drawPixel (c r : Nat) (bit : Bool) (acc : Display × Bool) : Display × Bool :=
  if bit = true ∧ c < 64 ∧ r < 32 then (acc.1.toggle c r, acc.2 || acc.1.pixel c r) else acc

/-- Draw the pixels `c` to 7 of a sprite byte along row `r` from column `ox`, bit 7 leftmost (R141). `k` counts the
pixels left, so `c = 8 - k`. -/
def drawByteFrom (ox r : Nat) (b : Byte) : Nat → Display × Bool → Display × Bool
  | 0, acc => acc
  | k + 1, acc => drawByteFrom ox r b k (drawPixel (ox + (7 - k)) r (b.getLsbD k) acc)

/-- Draw the sprite's bytes down from row `oy`, all at column `ox` (R143). -/
def drawRows (ox : Nat) : Nat → List Byte → Display × Bool → Display × Bool
  | _, [], acc => acc
  | oy, b :: bs, acc => drawRows ox (oy + 1) bs (drawByteFrom ox oy b 8 acc)

/-- The display after a sprite is drawn at (`ox`, `oy`), and whether a pixel that was on turned off (R143). -/
def drawSprite (d : Display) (ox oy : Nat) (rows : List Byte) : Display × Bool := drawRows ox oy rows (d, false)

end Sys2Proof
end

