-- ==== Sys2Proof/Machine/Memory.lean ====
section
/-! DEFINITION. The byte memory (spec/20_memory.md): what an unlisted address reads as, reading and writing a byte in
the canonical form, and the bounds-checked block accesses every instruction and the fetch go through. -/

namespace Sys2Proof

/-- The conventional font, one glyph a row (R66, from general knowledge; log 6). -/
def glyphRows : List (List Byte) :=
  [[0xF0, 0x90, 0x90, 0x90, 0xF0], [0x20, 0x60, 0x20, 0x20, 0x70],
   [0xF0, 0x10, 0xF0, 0x80, 0xF0], [0xF0, 0x10, 0xF0, 0x10, 0xF0]] ++
  [[0x90, 0x90, 0xF0, 0x10, 0x10], [0xF0, 0x80, 0xF0, 0x10, 0xF0],
   [0xF0, 0x80, 0xF0, 0x90, 0xF0], [0xF0, 0x10, 0x20, 0x40, 0x40]] ++
  [[0xF0, 0x90, 0xF0, 0x90, 0xF0], [0xF0, 0x90, 0xF0, 0x10, 0xF0],
   [0xF0, 0x90, 0xF0, 0x90, 0x90], [0xE0, 0x90, 0xE0, 0x90, 0xE0]] ++
  [[0xF0, 0x80, 0x80, 0x80, 0xF0], [0xE0, 0x90, 0x90, 0x90, 0xE0],
   [0xF0, 0x80, 0xF0, 0x80, 0xF0], [0xF0, 0x80, 0xF0, 0x80, 0x80]]

/-- Byte `k` of the conventional font: glyph g is bytes 5 g to 5 g + 4 (R67). -/
def fontByte (k : Nat) : Byte := (glyphRows.getD (k / 5) []).getD (k % 5) 0

/-- What an address that memory does not list reads as: the contents after a reset with the default parameters, the
font at 0x050..0x09F and INIT.M = 0 elsewhere (R42, R64; DESIGN CHOICE for the zero, log 8). -/
def Memory.unlisted (a : Nat) : Byte :=
  if 0x050 ≤ a ∧ a < 0x0A0 then fontByte (a - 0x050) else 0

/-- The byte at address `a` (R10 `MemRead`, the bound checked by the caller). -/
def Memory.read : Memory → Nat → Byte
  | [], a => Memory.unlisted a
  | (k, b) :: rest, a => if k = a then b else Memory.read rest a

/-- Put a byte in front, unless it is what its address reads as anyway. -/
def Memory.cons (a : Nat) (b : Byte) (m : Memory) : Memory :=
  if b = Memory.unlisted a then m else (a, b) :: m

/-- Write one byte (R10 `MemWrite`, the bound checked by the caller), keeping the canonical form. -/
def Memory.write : Memory → Nat → Byte → Memory
  | [], a, b => Memory.cons a b []
  | (k, c) :: rest, a, b =>
    if a < k then Memory.cons a b ((k, c) :: rest)
    else if a = k then Memory.cons a b rest
    else (k, c) :: Memory.write rest a b

/-- Write consecutive bytes upwards from `a`. -/
def Memory.writeBytes (m : Memory) (a : Nat) : List Byte → Memory
  | [] => m
  | b :: bs => Memory.writeBytes (m.write a b) (a + 1) bs

/-- Read `n` consecutive bytes upwards from `a`. -/
def Memory.readBytes (m : Memory) (a : Nat) : Nat → List Byte
  | 0 => []
  | n + 1 => m.read a :: Memory.readBytes m (a + 1) n

/-- Every address of the `n` bytes from `a` exists: none is above 0xFFF (R63). Addresses are unbounded integers. -/
def blockExists (a n : Nat) : Bool := n = 0 || a + (n - 1) ≤ 0xFFF

/-- Read `n` bytes, all bounds checked before any is read (R63, R68). -/
def Memory.readBlock (m : Memory) (a n : Nat) : Option (List Byte) :=
  if blockExists a n then some (m.readBytes a n) else none

/-- Write bytes, all bounds checked before any is written (R63). -/
def Memory.writeBlock (m : Memory) (a : Nat) (bs : List Byte) : Option Memory :=
  if blockExists a bs.length then some (m.writeBytes a bs) else none

/-- The canonical form from address `lo` on: addresses strictly rising and at most 0xFFF, no byte equal to what its
address reads as when unlisted. -/
def Memory.wfFrom : Nat → Memory → Bool
  | _, [] => true
  | lo, (a, b) :: rest =>
    decide (lo ≤ a) && decide (a ≤ 0xFFF) && decide (b ≠ Memory.unlisted a) && Memory.wfFrom (a + 1) rest

/-- The canonical form of memory. -/
def Memory.wf (m : Memory) : Bool := Memory.wfFrom 0 m

end Sys2Proof
end

