-- ==== Sys2Proof/Machine/Defaults.lean ====
section
/-! DEFINITION. The default values the spec gives the parameters of R6: BNNN_MODE (log 4), VF_ORDER (log 5), FONT
(log 6) and INIT (log 7). -/

namespace Sys2Proof.Machine

/-- BNNN_MODE's default (R6, R175; DESIGN CHOICE of the spec, C3 and D5; log 4). -/
def bnnnModeDefault : BnnnMode := .postIncrement

/-- VF_ORDER's default (R6, R190; DESIGN CHOICE of the spec, D6; log 5). -/
def vfOrderDefault : VfOrder := .flagLast

/-- FONT's default: the conventional table (R66; PRESUMED, log 6). -/
def fontDefault : Vector Byte 80 := Vector.ofFn fun k => fontByte k

/-- INIT's default: all zero and false (R6, R42; DESIGN CHOICE of the spec, D14; log 7). -/
def initDefault : Init where
  v       := Vector.replicate 16 0
  i       := 0
  mem     := []
  dt      := 0
  st      := 0
  keys    := Vector.replicate 16 false
  display := Vector.replicate 64 (Vector.replicate 32 false)
  redraw  := false

/-- The default parameters (R6). -/
def paramsDefault : Params where
  bnnnMode := bnnnModeDefault
  vfOrder  := vfOrderDefault
  font     := fontDefault
  init     := initDefault

end Sys2Proof.Machine
end

