-- ==== Sys2Proof/Machine/State.lean ====
section
/-! DEFINITION. The machine's state (spec/10_state.md R20), the host's events (R40), the reasons a step can stop, and
the state after reset (R42). Plain data. -/

namespace Sys2Proof.Machine

/-- Why the run is halted (R37, R280). -/
inductive HaltReason where
  /-- 2nnn with 16 entries on the call stack (R163). -/
  | stackOverflow
  /-- 00EE with an empty call stack (R161). -/
  | stackUnderflow
  /-- A word that matches no category or sub-opcode (R96, R125). -/
  | unknownOpcode
  /-- A fetch, Dxyn, Fx33, Fx55 or Fx65 that reaches an address above 0xFFF (R63). -/
  | memoryOutOfBounds
  /-- Ex9E or ExA1 with VX above 15 (R262). -/
  | keyOutOfRange
  deriving DecidableEq, Repr

/-- The run status (R37). -/
inductive Status where
  | running
  | halted (r : HaltReason)
  deriving DecidableEq, Repr

/-- What a Load reports to the host (R281, R324). -/
inductive LoadResult where
  | ok
  | romTooLarge
  | romReadShort
  deriving DecidableEq, Repr

/-- The events of the block's interface (R40), each applied whole. -/
inductive Event where
  /-- One fetch-decode-execute cycle with its random byte (R120). -/
  | tick (rand : Byte)
  /-- Both timers counted down (R290). -/
  | timerTick
  /-- A key goes down (R291). -/
  | keyDown (k : Key)
  /-- A key comes up (R291). -/
  | keyUp (k : Key)
  /-- The renderer has consumed the frame (R293). -/
  | redrawAck
  /-- The unit is constructed anew (R320). -/
  | reset
  /-- A program image is placed at 0x200 (R324). -/
  | load (bytes : List Byte) (reportedSize : Nat)
  deriving DecidableEq, Repr

/-- What R21 lists as no state of the machine but arguments of its step. The host's `step` takes no argument, so the
model carries them here (log 9). No instruction changes any of it. -/
structure Env where
  /-- BNNN_MODE, VF_ORDER, FONT and INIT, fixed for the machine (R6). -/
  params     : Params
  /-- The host's events still to come, oldest first; when there is none the next event is a Tick (R296, log 9). -/
  schedule   : List Event
  /-- The random byte of the tick being executed (R207; free value, log 3). -/
  rand       : Byte
  /-- Counts ticks: where the free values of Config are taken (log 3). -/
  draws      : Nat
  /-- No Load and no Tick since the last Reset, so a Load is allowed (R326, log 10). -/
  loadable   : Bool
  /-- What the Load since the last Reset reported (R324, log 10). -/
  loadReport : Option LoadResult
  deriving DecidableEq, Repr

/-- The state of R20, and the model's `env`. -/
structure State where
  /-- V0..VF (R22). -/
  v       : Vector Byte 16
  /-- The index register I (R25). -/
  i       : Word
  /-- The program counter (R26). -/
  pc      : Word
  /-- The 4096 bytes of memory (R39). -/
  mem     : Memory
  /-- The delay timer (R34). -/
  dt      : Byte
  /-- The sound timer (R35). -/
  st      : Byte
  /-- The keypad (R36). -/
  keys    : Vector Bool 16
  /-- The call stack, its top at the end (R9, R29). -/
  stack   : List Word
  /-- The display buffer (R32). -/
  display : Display
  /-- The redraw flag (R33). -/
  redraw  : Bool
  /-- Running or Halted (R37). -/
  status  : Status
  /-- The step's arguments (R21). -/
  env     : Env
  deriving DecidableEq, Repr

/-- Faults of a step: there are none. What the spec calls a fault takes the machine to the state Halted (R127, R285),
which is a next state with a status of its own, so no step of the model ends in `Host.Outcome.fault` (log 1; safe). -/
inductive Fault where
  deriving DecidableEq, Repr

/-- Refusals of a step. -/
inductive Refusal where
  /-- Raised by `exec` for an instruction that has no meaning yet: none here. Safe: nothing is claimed of it. -/
  | notModelled (mnemonic : String)
  /-- Raised by the event Load when it does not come once after Reset and before the first Tick; the spec gives it no
  effect there (R326). Safe: the model stops where the spec gives the host no such move (log 10). -/
  | loadNotAllowed
  deriving DecidableEq, Repr

/-- The model's own fields at reset: the default parameters, no event scheduled (log 4, 5, 6, 7, 9). -/
def Env.reset : Env where
  params     := paramsDefault
  schedule   := []
  rand       := 0
  draws      := 0
  loadable   := true
  loadReport := none

/-- The machine right after Reset, with the default parameters (R42, R320): memory lists nothing, since the font is what
its addresses read as unlisted. -/
def State.reset : State where
  v       := initDefault.v
  i       := initDefault.i
  pc      := 0x200
  mem     := []
  dt      := initDefault.dt
  st      := initDefault.st
  keys    := initDefault.keys
  stack   := []
  display := initDefault.display
  redraw  := initDefault.redraw
  status  := .running
  env     := Env.reset

end Sys2Proof.Machine
end

