-- ==== Sys2Proof/Machine/Ops.lean ====
section
/-! DEFINITION. The named operations over the state: accessors, the call stack (spec/10_state.md R29, R30), skip
(spec/42_control_flow.md R164), fetch (spec/40_cycle.md R121, R122), and taking a fault (R127). There is no return from
a fault (spec/60_exceptions.md R286): Reset is the only way out of Halted, and stands in HostEvents.lean. -/

namespace Sys2Proof.Machine

/-! ### One setter per field -/

/-- The data register `x` (R22). -/
def State.reg (s : State) (x : Reg) : Byte := s.v[x]

/-- Write the data register `x` (R22). -/
def State.setReg (s : State) (x : Reg) (b : Byte) : State := { s with v := s.v.set x b }

def State.setV (s : State) (v : Vector Byte 16) : State := { s with v := v }
def State.setI (s : State) (w : Word) : State := { s with i := w }
def State.setPc (s : State) (w : Word) : State := { s with pc := w }
def State.setMem (s : State) (m : Memory) : State := { s with mem := m }
def State.setDt (s : State) (b : Byte) : State := { s with dt := b }
def State.setSt (s : State) (b : Byte) : State := { s with st := b }
def State.setKeys (s : State) (k : Vector Bool 16) : State := { s with keys := k }
def State.setStack (s : State) (l : List Word) : State := { s with stack := l }
def State.setDisplay (s : State) (d : Display) : State := { s with display := d }
def State.setRedraw (s : State) (b : Bool) : State := { s with redraw := b }
def State.setStatus (s : State) (t : Status) : State := { s with status := t }
def State.setEnv (s : State) (e : Env) : State := { s with env := e }

/-! ### The outcomes of an instruction -/

/-- The outcome type of every meaning. -/
abbrev Result := Host.Outcome State Fault Refusal

/-- Halt with the reason recorded; nothing else changes (R127, R282). -/
def State.halt (r : HaltReason) (s : State) : State := s.setStatus (.halted r)

/-- Undo the fetch advance: PC back to this instruction's address (R127; R264 for Fx0A). -/
def State.rewind (s : State) : State := s.setPc (s.pc - 2)

/-- Take a fault within Execute: the fetch advance is undone and the status records the reason (R127, R285). Every check
of an instruction comes before its first write, so the advance is all there is to undo. -/
def raiseFault (r : HaltReason) (s : State) : Result := .next (s.rewind.halt r)

/-! ### Control transfer -/

/-- Skip (R164): PC passes two more bytes if the condition holds. -/
def State.skip (cond : Bool) (s : State) : State := if cond then s.setPc (s.pc + 2) else s

/-- Push (R29): none when 16 entries are on the stack. -/
def State.push (a : Word) (s : State) : Option State :=
  if s.stack.length < 16 then some (s.setStack (s.stack ++ [a])) else none

/-- Pop (R30): the top entry and the state without it; none when the stack is empty. -/
def State.pop (s : State) : Option (Word × State) :=
  match s.stack.getLast? with
  | some a => some (a, s.setStack s.stack.dropLast)
  | none => none

/-! ### Fetch (R121, R122) -/

/-- The two bytes at PC; none when one of them does not exist (R121). -/
def State.fetch (s : State) : Option (List Byte) := s.mem.readBlock s.pc.toNat 2

/-- PC past the fetched word (R122). -/
def State.advance (s : State) : State := s.setPc (s.pc + 2)

/-- The tick's random byte arrives, and with the first Tick the time for a Load is over (R120, R326). -/
def State.beginTick (rand : Byte) (s : State) : State :=
  s.setEnv { s.env with rand := rand, draws := s.env.draws + 1, loadable := false }

/-! ### Observation (R294) -/

/-- The numeric status of R280: 0 is Running (DESIGN CHOICE of the spec, D13; log 20). -/
def statusCode : Status → Nat
  | .running => 0
  | .halted .stackOverflow => 1
  | .halted .stackUnderflow => 2
  | .halted .unknownOpcode => 3
  | .halted .memoryOutOfBounds => 4
  | .halted .keyOutOfRange => 5

/-- What the host reads between events (R40, R294, R299): the five values it is offered, every other piece of the
state for diagnostics, the stack as a snapshot from bottom to top (R31), and what the last Load reported (R281). -/
structure Observation where
  display    : Display
  redraw     : Bool
  status     : Nat
  dt         : Byte
  st         : Byte
  v          : Vector Byte 16
  i          : Word
  pc         : Word
  mem        : Memory
  keys       : Vector Bool 16
  snapshot   : List Word
  loadReport : Option LoadResult
  deriving DecidableEq, Repr

/-- Observing changes nothing (R294): it is a function of the state. -/
def State.observe (s : State) : Observation where
  display    := s.display
  redraw     := s.redraw
  status     := statusCode s.status
  dt         := s.dt
  st         := s.st
  v          := s.v
  i          := s.i
  pc         := s.pc
  mem        := s.mem
  keys       := s.keys
  snapshot   := s.stack
  loadReport := s.env.loadReport

end Sys2Proof.Machine
end

