-- ==== Sys2Proof/Machine/Flags.lean ====
section
/-! DEFINITION. Every flag computation, and the write-back of the flag-writing 8xy* instructions
(spec/43_alu.md R190 to R192). The flag register is VF (spec/10_state.md R23). -/

namespace Sys2Proof.Machine

/-- A flag as VF holds it: 1 or 0. -/
def flagByte (b : Bool) : Byte := if b then 1 else 0

/-- The carry of `a + b`: the true sum is above 255 (R192, R199). -/
def carry (a b : Byte) : Bool := a.toNat + b.toNat > 255

/-- The no-borrow flag of `p - q` (R192, R200, R202). -/
def noBorrow (p q : Byte) : Bool := p.toNat ≥ q.toNat

/-- The bit a right shift by one puts out (R201). -/
def bitOutRight (b : Byte) : Bool := b.getLsbD 0

/-- The bit a left shift by one puts out (R203). -/
def bitOutLeft (b : Byte) : Bool := b.getLsbD 7

/-- Fx1E's flag: the unwrapped sum is above 0xFFF (R231; 0 otherwise is the spec's decision D7, log 16). -/
def indexOverflow (i : Word) (a : Byte) : Bool := i.toNat + a.toNat > 0xFFF

/-- What VF ends holding when it is both destination and flag (R190, R204; the order is a parameter, and under Any the
byte is a free value, log 5). -/
def vfAsDestination (order : VfOrder) (draw : Nat) (res : Byte) (flag : Bool) : Byte :=
  match order with
  | .flagLast => flagByte flag
  | .resultLast => res
  | .any => Config.anyByte draw

/-- `WB(x, res, flag)` of R190. -/
def writeBack (x : Reg) (res : Byte) (flag : Bool) (s : State) : State :=
  if x = vf then s.setReg vf (vfAsDestination s.env.params.vfOrder s.env.draws res flag)
  else (s.setReg x res).setReg vf (flagByte flag)

end Sys2Proof.Machine
end

