-- ==== Sys2Proof/Machine/Alu.lean ====
section
/-! DEFINITION. The register ALU and the random instruction (spec/43_alu.md). Operands are read before any write
(R191). -/

namespace Sys2Proof.Machine

/-- 6xnn (R193). -/
def execLdByte (x : Reg) (nn : Byte) (s : State) : Result := .next (s.setReg x nn)

/-- 7xnn (R194): no flag. -/
def execAddByte (x : Reg) (nn : Byte) (s : State) : Result := .next (s.setReg x (s.reg x + nn))

/-- 8xy0 (R195). -/
def execLdReg (x y : Reg) (s : State) : Result := .next (s.setReg x (s.reg y))

/-- 8xy1 (R196): VF cleared. -/
def execOr (x y : Reg) (s : State) : Result := .next (writeBack x (s.reg x ||| s.reg y) false s)

/-- 8xy2 (R197): VF cleared. -/
def execAnd (x y : Reg) (s : State) : Result := .next (writeBack x (s.reg x &&& s.reg y) false s)

/-- 8xy3 (R198): VF cleared. -/
def execXor (x y : Reg) (s : State) : Result := .next (writeBack x (s.reg x ^^^ s.reg y) false s)

/-- 8xy4 (R199). -/
def execAddReg (x y : Reg) (s : State) : Result :=
  .next (writeBack x (s.reg x + s.reg y) (carry (s.reg x) (s.reg y)) s)

/-- 8xy5 (R200). -/
def execSub (x y : Reg) (s : State) : Result :=
  .next (writeBack x (s.reg x - s.reg y) (noBorrow (s.reg x) (s.reg y)) s)

/-- 8xy6 (R201): the shifted value is VY. -/
def execShr (x y : Reg) (s : State) : Result :=
  .next (writeBack x (s.reg y >>> 1) (bitOutRight (s.reg y)) s)

/-- 8xy7 (R202). -/
def execSubn (x y : Reg) (s : State) : Result :=
  .next (writeBack x (s.reg y - s.reg x) (noBorrow (s.reg y) (s.reg x)) s)

/-- 8xyE (R203): the shifted value is VY. -/
def execShl (x y : Reg) (s : State) : Result :=
  .next (writeBack x (s.reg y <<< 1) (bitOutLeft (s.reg y)) s)

/-- Cxnn (R207): the tick's random byte, masked. -/
def execRnd (x : Reg) (nn : Byte) (s : State) : Result := .next (s.setReg x (s.env.rand &&& nn))

end Sys2Proof.Machine
end

