-- ==== Sys2Proof/Machine/Operands.lean ====
section
/-! DEFINITION. The operand forms (spec/30_encoding.md R93, spec/44_index_memory.md R237) and the values instructions
compute from their operands. -/

namespace Sys2Proof.Machine

/-- `zext_16(nnn)` (R8, R93). -/
def zext16 (nnn : BitVec 12) : Word := nnn.setWidth 16

/-- The address I holds, as an unbounded integer: the base of every data access (R63, R237). -/
abbrev State.base (s : State) : Nat := s.i.toNat

/-- The key VX names; none when VX is above 15 (R262). -/
def keyNamed (b : Byte) : Option Key :=
  if h : b.toNat < 16 then some ⟨b.toNat, h⟩ else none

/-- The lowest key that is down (R264: keys 0 to 15 in ascending order). -/
def firstKeyDown (keys : Vector Bool 16) : Option Key := (List.finRange 16).find? fun k => keys[k]

/-- A key's number as a byte (R264). -/
def keyByte (k : Key) : Byte := BitVec.ofNat 8 k

/-- The column a sprite starts at: VX mod 64 (R142). -/
def originColumn (b : Byte) : Nat := b.toNat % 64

/-- The row a sprite starts at: VY mod 32 (R142). -/
def originRow (b : Byte) : Nat := b.toNat % 32

/-- The address of glyph VX, the byte not masked (R232). -/
def glyphAddress (b : Byte) : Word := BitVec.ofNat 16 (0x050 + 5 * b.toNat)

/-- Hundreds, tens and units (R233). -/
def bcdDigits (b : Byte) : List Byte :=
  [BitVec.ofNat 8 (b.toNat / 100), BitVec.ofNat 8 (b.toNat / 10 % 10), BitVec.ofNat 8 (b.toNat % 10)]

/-- V0 to VX, lowest first (R234). -/
def State.regsUpTo (s : State) (x : Reg) : List Byte := s.v.toList.take (x.val + 1)

/-- V0 onwards take the bytes, the registers past the last byte keep their values (R235). -/
def State.withRegs (s : State) (bs : List Byte) : State :=
  s.setV (Vector.ofFn fun r => bs.getD r.val s.v[r])

/-- I past the `x + 1` bytes of a block access (R234, R235). -/
def State.advanceI (s : State) (x : Reg) : State := s.setI (BitVec.ofNat 16 (s.i.toNat + x.val + 1))

/-- Where Bnnn goes, PC already advanced (R176). -/
def offsetTarget (mode : BnnnMode) (pc : Word) (nnn : BitVec 12) (v0 : Byte) : Word :=
  match mode with
  | .postIncrement => BitVec.ofNat 16 (pc.toNat + (zext16 nnn).toNat + v0.toNat)
  | .absolute => BitVec.ofNat 16 ((zext16 nnn).toNat + v0.toNat)

end Sys2Proof.Machine
end

