-- ==== Sys2Proof/Machine/ControlFlow.lean ====
section
/-! DEFINITION. Control flow (spec/42_control_flow.md). PC is already past the instruction (R122). -/

namespace Sys2Proof.Machine

/-- 00EE (R161). -/
def execRet (s : State) : Result :=
  match s.pop with
  | some (a, t) => .next (t.setPc a)
  | none => raiseFault .stackUnderflow s

/-- 1nnn (R162). -/
def execJp (nnn : BitVec 12) (s : State) : Result := .next (s.setPc (zext16 nnn))

/-- 2nnn (R163): the pushed address is the already advanced PC. -/
def execCall (nnn : BitVec 12) (s : State) : Result :=
  match s.push s.pc with
  | some t => .next (t.setPc (zext16 nnn))
  | none => raiseFault .stackOverflow s

/-- 3xnn (R165). -/
def execSeByte (x : Reg) (nn : Byte) (s : State) : Result := .next (s.skip (s.reg x == nn))

/-- 4xnn (R166). -/
def execSneByte (x : Reg) (nn : Byte) (s : State) : Result := .next (s.skip (s.reg x != nn))

/-- 5xy0 (R167). -/
def execSeReg (x y : Reg) (s : State) : Result := .next (s.skip (s.reg x == s.reg y))

/-- 9xy0 (R168). -/
def execSneReg (x y : Reg) (s : State) : Result := .next (s.skip (s.reg x != s.reg y))

/-- Bnnn (R176): V0 is added whatever the x nibble of nnn holds; the mode is a parameter (log 4). -/
def execJpV0 (nnn : BitVec 12) (s : State) : Result :=
  .next (s.setPc (offsetTarget s.env.params.bnnnMode s.pc nnn (s.reg 0)))

end Sys2Proof.Machine
end

