-- ==== Sys2Proof/Machine/Display.lean ====
section
/-! DEFINITION. The display instructions (spec/41_display.md). -/

namespace Sys2Proof.Machine

/-- 00E0 (R140). -/
def execCls (s : State) : Result := .next ((s.setDisplay Display.blank).setRedraw true)

/-- The sprite's rows drawn from the origin in VX, VY, the collision flag in VF, the redraw flag set (R143, R144). -/
def State.draw (x y : Reg) (rows : List Byte) (s : State) : State :=
  let drawn := drawSprite s.display (originColumn (s.reg x)) (originRow (s.reg y)) rows
  ((s.setDisplay drawn.1).setReg vf (flagByte drawn.2)).setRedraw true

/-- Dxyn (R143): all n bytes are read and checked before anything is written (R141). -/
def execDrw (x y : Reg) (n : BitVec 4) (s : State) : Result :=
  match s.mem.readBlock s.base n.toNat with
  | some rows => .next (s.draw x y rows)
  | none => raiseFault .memoryOutOfBounds s

end Sys2Proof.Machine
end

