-- ==== Sys2Proof/Machine/IndexMemory.lean ====
section
/-! DEFINITION. The index register and memory access (spec/44_index_memory.md). -/

namespace Sys2Proof.Machine

/-- Annn (R230). -/
def execLdI (nnn : BitVec 12) (s : State) : Result := .next (s.setI (zext16 nnn))

/-- Fx1E (R231): I keeps the 16-bit sum (log 16); VX is read before VF is written. -/
def execAddI (x : Reg) (s : State) : Result :=
  .next ((s.setI (BitVec.ofNat 16 (s.i.toNat + (s.reg x).toNat))).setReg vf (flagByte (indexOverflow s.i (s.reg x))))

/-- Fx29 (R232). -/
def execGlyph (x : Reg) (s : State) : Result := .next (s.setI (glyphAddress (s.reg x)))

/-- Fx33 (R233). -/
def execBcd (x : Reg) (s : State) : Result :=
  match s.mem.writeBlock s.base (bcdDigits (s.reg x)) with
  | some m => .next (s.setMem m)
  | none => raiseFault .memoryOutOfBounds s

/-- Fx55 (R234). -/
def execStoreRegs (x : Reg) (s : State) : Result :=
  match s.mem.writeBlock s.base (s.regsUpTo x) with
  | some m => .next ((s.setMem m).advanceI x)
  | none => raiseFault .memoryOutOfBounds s

/-- Fx65 (R235). -/
def execLoadRegs (x : Reg) (s : State) : Result :=
  match s.mem.readBlock s.base (x.val + 1) with
  | some bs => .next ((s.withRegs bs).advanceI x)
  | none => raiseFault .memoryOutOfBounds s

end Sys2Proof.Machine
end

