-- ==== Sys2Proof/Machine/InputTimers.lean ====
section
/-! DEFINITION. Keypad and timer instructions (spec/45_input_timers.md). -/

namespace Sys2Proof.Machine

/-- Ex9E (R260, R262). -/
def execSkp (x : Reg) (s : State) : Result :=
  match keyNamed (s.reg x) with
  | some k => .next (s.skip (s.keys[k] == true))
  | none => raiseFault .keyOutOfRange s

/-- ExA1 (R261, R262). -/
def execSknp (x : Reg) (s : State) : Result :=
  match keyNamed (s.reg x) with
  | some k => .next (s.skip (s.keys[k] == false))
  | none => raiseFault .keyOutOfRange s

/-- Fx07 (R263). -/
def execReadDelay (x : Reg) (s : State) : Result := .next (s.setReg x s.dt)

/-- Fx0A (R264): with no key down the instruction is fetched again at the next tick. -/
def execWaitKey (x : Reg) (s : State) : Result :=
  match firstKeyDown s.keys with
  | some k => .next (s.setReg x (keyByte k))
  | none => .next s.rewind

/-- Fx15 (R265). -/
def execSetDelay (x : Reg) (s : State) : Result := .next (s.setDt (s.reg x))

/-- Fx18 (R266). -/
def execSetSound (x : Reg) (s : State) : Result := .next (s.setSt (s.reg x))

end Sys2Proof.Machine
end

