-- ==== Sys2Proof/WellFormed.lean ====
section
/-! DEFINITION. What is well formed. Every term of `Instr` is: its operand types admit exactly the field values of
spec/30_encoding.md R93. So the checks are on the raw data the machine is given: instruction words (R96) and program
images (spec/70_reset_and_hazards.md R324). -/

namespace Sys2Proof

/-- Category 0 knows two words only (R96, first item). -/
def Word.knownInCategory0 (w : Word) : Bool :=
  w.extractLsb' 0 12 == 0x0E0 || w.extractLsb' 0 12 == 0x0EE

/-- Category 8: the values of n that R96, second item, does not list. -/
def Word.knownInCategory8 (w : Word) : Bool :=
  !([0x8, 0x9, 0xA, 0xB, 0xC, 0xD, 0xF] : List (BitVec 4)).contains (w.extractLsb' 0 4)

/-- Category E (R96, third item). -/
def Word.knownInCategoryE (w : Word) : Bool :=
  ([0x9E, 0xA1] : List Byte).contains (w.extractLsb' 0 8)

/-- Category F (R96, fourth item). -/
def Word.knownInCategoryF (w : Word) : Bool :=
  ([0x07, 0x0A, 0x15, 0x18, 0x1E, 0x29, 0x33, 0x55, 0x65] : List Byte).contains (w.extractLsb' 0 8)

/-- A word that stands for an instruction: none of those R96 lists as unknown. Written from R96's list, not from the
decoder. -/
def Word.known (w : Word) : Bool :=
  if w.extractLsb' 12 4 = 0x0 then Word.knownInCategory0 w
  else if w.extractLsb' 12 4 = 0x8 then Word.knownInCategory8 w
  else if w.extractLsb' 12 4 = 0xE then Word.knownInCategoryE w
  else if w.extractLsb' 12 4 = 0xF then Word.knownInCategoryF w
  else true

/-- An image fits above 0x200 (R324, first check: not RomTooLarge). -/
def Image.fits (reportedSize : Nat) : Bool := reportedSize ≤ 3584

/-- The read gave all the bytes the host's file source reported (R324, second check: not RomReadShort). -/
def Image.complete (bytes : List Byte) (reportedSize : Nat) : Bool := reportedSize ≤ bytes.length

/-- An image Load accepts (R324). -/
def Image.wellFormed (bytes : List Byte) (reportedSize : Nat) : Bool :=
  Image.fits reportedSize && Image.complete bytes reportedSize

end Sys2Proof
end

