-- ==== Sys2Proof/Machine/HostEvents.lean ====
section
/-! DEFINITION. The host's events (spec/10_state.md R40, spec/60_exceptions.md R290 to R297,
spec/70_reset_and_hazards.md R320 to R326). They apply in Running and in Halted alike (R290, D26; log 2). -/

namespace Sys2Proof.Machine

/-- Memory as Reset leaves it: INIT.M with FONT over 0x050..0x09F (R42, R320). -/
def resetMemory (p : Params) : Memory := p.init.mem.writeBytes 0x050 p.font.toList

/-- Reset (R320, R321): every piece of state takes its reset value, none is kept; a Load is allowed again (R326). The
arguments of R21 are not state: the parameters, the schedule and the draws go on. -/
def State.construct (s : State) : State where
  v       := s.env.params.init.v
  i       := s.env.params.init.i
  pc      := 0x200
  mem     := resetMemory s.env.params
  dt      := s.env.params.init.dt
  st      := s.env.params.init.st
  keys    := s.env.params.init.keys
  stack   := []
  display := s.env.params.init.display
  redraw  := s.env.params.init.redraw
  status  := .running
  env     := { s.env with loadable := true, loadReport := none }

/-- What Load reports, the size checked before the short read (R324; the order is the spec's decision D21). -/
def loadResult (bytes : List Byte) (reportedSize : Nat) : LoadResult :=
  if Image.fits reportedSize = false then .romTooLarge
  else if Image.complete bytes reportedSize = false then .romReadShort
  else .ok

/-- Memory after Load: a failed one writes nothing (R324, R325). -/
def loadMemory (m : Memory) (bytes : List Byte) (reportedSize : Nat) : Memory :=
  match loadResult bytes reportedSize with
  | .ok => m.writeBytes 0x200 (bytes.take reportedSize)
  | .romTooLarge => m
  | .romReadShort => m

/-- Load where it is allowed (R324): M is all of the machine it changes; the result goes to the host. -/
def State.load (bytes : List Byte) (reportedSize : Nat) (s : State) : State :=
  (s.setMem (loadMemory s.mem bytes reportedSize)).setEnv
    { s.env with loadable := false, loadReport := some (loadResult bytes reportedSize) }

/-- A count that stops at 0 (R34, R290). -/
def countDown (b : Byte) : Byte := BitVec.ofNat 8 (b.toNat - 1)

/-- TimerTick (R290). -/
def State.timerTick (s : State) : State := (s.setDt (countDown s.dt)).setSt (countDown s.st)

/-- KeyDown and KeyUp (R291). -/
def State.setKey (k : Key) (down : Bool) (s : State) : State := s.setKeys (s.keys.set k down)

/-- RedrawAck (R293). -/
def State.redrawAck (s : State) : State := s.setRedraw false

/-- The event that comes next: the schedule's head, or a Tick with a free random byte (R296, log 3, log 9). -/
def State.nextEvent (s : State) : Event :=
  match s.env.schedule with
  | [] => .tick (Config.randomByte s.env.draws)
  | e :: _ => e

/-- The state with that event taken off the schedule. -/
def State.dropEvent (s : State) : State := s.setEnv { s.env with schedule := s.env.schedule.tail }

end Sys2Proof.Machine
end

