-- ==== Sys2Proof/Machine/Tick.lean ====
section
/-! DEFINITION. The tick (spec/40_cycle.md R120) and the application of one event (spec/60_exceptions.md R296). -/

namespace Sys2Proof.Machine

/-- Decode and execute fetched bytes on a state whose PC is still the fetch address (R122 to R125). -/
def runFetched (bytes : List Byte) (s : State) : Result :=
  match decode bytes with
  | .ok (i, _) => exec i s.advance
  | .error _ => raiseFault .unknownOpcode s.advance

/-- The engine's cycle while Running (R120, the checks in the order of R128). -/
def cycle (s : State) : Result :=
  match s.fetch with
  | some bytes => runFetched bytes s
  | none => .next (s.halt .memoryOutOfBounds)

/-- `Tick(rand)` (R120): nothing in Halted (R129). -/
def tick (rand : Byte) (s : State) : Result :=
  match s.status with
  | .running => cycle (s.beginTick rand)
  | .halted _ => .next s

/-- One event, applied whole (R40). Load comes once, after Reset and before the first Tick (R326). -/
def applyEvent (e : Event) (s : State) : Result :=
  match e with
  | .tick rand => tick rand s
  | .timerTick => .next s.timerTick
  | .keyDown k => .next (s.setKey k true)
  | .keyUp k => .next (s.setKey k false)
  | .redrawAck => .next s.redrawAck
  | .reset => .next s.construct
  | .load bytes reportedSize => if s.env.loadable then .next (s.load bytes reportedSize) else .refused .loadNotAllowed

/-- One event of the single total order (R296). -/
def runNext (s : State) : Result := applyEvent s.nextEvent s.dropEvent

/-- The fetch's place for a word of the opcode table: its bytes at PC, the engine Running and no host event before the
next Tick. Where PC names no two bytes nothing can be fetched, and memory is left alone (log 12). -/
def placeFetch (nbits w : Nat) (s : State) : State :=
  let m := (s.mem.writeBlock s.pc.toNat (tableBytes nbits w)).getD s.mem
  ((s.setMem m).setStatus .running).setEnv { s.env with schedule := [] }

end Sys2Proof.Machine
end

