-- ==== Sys2Proof/Machine/Step.lean ====
section
/-! DEFINITION. The step of the machine: the next event of the host's order, a Tick when none is scheduled. -/

namespace Sys2Proof.Machine

/-- One step (R296; the body stands in Tick.lean). -/
def step (s : State) : Host.Outcome State Fault Refusal := runNext s

/-- `s` with an instruction of the opcode table where the next step fetches (the body stands in Tick.lean). -/
def State.withFetchWord (s : State) (nbits w : Nat) : State := placeFetch nbits w s

end Sys2Proof.Machine
end

