-- ==== Sys2Proof/Safety.lean ====
section
/-! DEFINITION. What a sound state and a safe run are, and what an instruction leaves unchanged, in the terms the
statements use. -/

namespace Sys2Proof.Machine

/-- The engine is running (R37). -/
def State.isRunning (s : State) : Prop := s.status = .running

/-- The invariant of every state a run can reach: memory is in canonical form and holds only addresses 0x000..0xFFF
(R63), the call stack holds at most 16 entries (R29), and INIT.M is a memory of that form. -/
def State.Inv (s : State) : Prop :=
  s.mem.wf = true ∧ s.stack.length ≤ 16 ∧ s.env.params.init.mem.wf = true

/-- `k` steps from `s` all go on, and every state on the way is Running: the run raises no fault of R280. -/
def SafeRun : Nat → State → Prop
  | 0, s => s.isRunning
  | k + 1, s => s.isRunning ∧ ∃ t, step s = .next t ∧ SafeRun k t

/-- The parts of the state an instruction may write besides PC and the status (R24). -/
inductive Part where
  | reg (r : Reg)
  | index
  | memory
  | stack
  | display
  | redraw
  | delay
  | sound
  deriving DecidableEq, Repr

/-- Nothing but PC and the named parts differs from `s` to `t`; every byte of memory is compared by reading it. -/
def UnchangedExcept (parts : List Part) (s t : State) : Prop :=
  (∀ r, Part.reg r ∉ parts → t.reg r = s.reg r) ∧
  (Part.index ∉ parts → t.i = s.i) ∧
  (Part.memory ∉ parts → ∀ a, t.mem.read a = s.mem.read a) ∧
  (Part.stack ∉ parts → t.stack = s.stack) ∧
  (Part.display ∉ parts → t.display = s.display) ∧
  (Part.redraw ∉ parts → t.redraw = s.redraw) ∧
  (Part.delay ∉ parts → t.dt = s.dt) ∧
  (Part.sound ∉ parts → t.st = s.st) ∧
  t.keys = s.keys ∧ t.status = s.status ∧ t.env = s.env

/-- The fault of R127 taken by an instruction: the tick undone (PC back at the instruction), the reason recorded. -/
def HaltsWith (i : Instr) (r : HaltReason) (s : State) : Prop :=
  exec i s = .next { s with pc := s.pc - 2, status := .halted r }

/-- The eight flag-writing instructions with VF as destination and VY as source, each with its result and its flag
computed as integers from the state before it (R190, R204). -/
def vfWriters (s : State) (y : Reg) : List (Instr × Nat × Nat) :=
  [(Instr.or vf y, (s.reg vf ||| s.reg y).toNat, 0), (Instr.and vf y, (s.reg vf &&& s.reg y).toNat, 0),
   (Instr.xor vf y, (s.reg vf ^^^ s.reg y).toNat, 0),
   (Instr.addReg vf y, ((s.reg vf).toNat + (s.reg y).toNat) % 256,
     if (s.reg vf).toNat + (s.reg y).toNat > 255 then 1 else 0),
   (Instr.sub vf y, ((s.reg vf).toNat + 256 - (s.reg y).toNat) % 256,
     if (s.reg vf).toNat ≥ (s.reg y).toNat then 1 else 0),
   (Instr.shr vf y, (s.reg y).toNat / 2, (s.reg y).toNat % 2),
   (Instr.subn vf y, ((s.reg y).toNat + 256 - (s.reg vf).toNat) % 256,
     if (s.reg y).toNat ≥ (s.reg vf).toNat then 1 else 0),
   (Instr.shl vf y, 2 * (s.reg y).toNat % 256, (s.reg y).toNat / 128)]

/-- The sprite bit that R141 and R142 put on column `c`, row `r` of the display: the sprite has `n` rows from address
`base`, its origin is (`ox`, `oy`). -/
def spriteBitAt (m : Memory) (base ox oy n c r : Nat) : Prop :=
  ox ≤ c ∧ c < ox + 8 ∧ oy ≤ r ∧ r < oy + n ∧ (m.read (base + (r - oy))).getLsbD (7 - (c - ox)) = true

end Sys2Proof.Machine
end

