-- ==== Sys2Proof/Certificates/Slice0/Obligations.lean ====
section
/-! DEFINITION. The statements for the provers. `exec i s` runs `i` on a state whose PC is already the fetch address plus
2 (spec/40_cycle.md R122). A statement about an instruction says its encoding, its result, PC, and its frame. -/

open Sys2Proof Sys2Proof.Machine

/-! ### Decoding and encoding -/

/-- The words of the source's §8 scenario, R101's example and one word of every other family. -/
def Obligations.SampleWordsDecode : Prop :=
  decodeWord 0x00E0 = .ok .cls ∧ decodeWord 0x6005 = .ok (.ldByte 0 0x05) ∧
  decodeWord 0x7003 = .ok (.addByte 0 0x03) ∧ decodeWord 0x1200 = .ok (.jp 0x200) ∧
  decodeWord 0x8344 = .ok (.addReg 3 4) ∧ decodeWord 0xD125 = .ok (.drw 1 2 5) ∧
  decodeWord 0xE49E = .ok (.skp 4) ∧ decodeWord 0xF265 = .ok (.loadRegs 2) ∧
  decodeWord 0x0000 = .error (.unknownOpcode 0x0000)

/-- Every instruction's word, its bytes and its opcode-table number decode back to it (the order of the two bytes is the
spec's decision D1, log 13). -/
def Obligations.DecodeOfEncodeIsTheInstruction : Prop :=
  ∀ (i : Instr) (rest : List Byte),
    decodeWord (encode i) = .ok i ∧ decode (encodeBytes i ++ rest) = .ok (i, rest) ∧
    decodeTableWord 16 (encode i).toNat = some i

/-- The decoder rejects exactly the words R96 lists (the list is `Word.known`, written from R96). That every 5xyn and 9xyn
is known, and by which field categories 0, 8, E and F are told apart, is the spec's decision D11, log 19. -/
def Obligations.DecoderRejectsExactlyTheUnknownWords : Prop :=
  ∀ w : Word,
    (Word.known w = true ↔ ∃ i, decodeWord w = .ok i) ∧
    (Word.known w = false ↔ decodeWord w = .error (.unknownOpcode w))

/-- Every word is the encoding of what it decodes to, but for the low nibble of categories 5 and 9, which is ignored
(R98; that categories 5 and 9 ignore it is the spec's decision D11, log 19). -/
def Obligations.EncodeOfDecodeIsTheWord : Prop :=
  ∀ (w : Word) (i : Instr), decodeWord w = .ok i →
    (((fieldsOf w).op = 0x5 ∨ (fieldsOf w).op = 0x9) → encode i = w &&& 0xFFF0) ∧
    (¬ ((fieldsOf w).op = 0x5 ∨ (fieldsOf w).op = 0x9) → encode i = w)

/-! ### The tick -/

/-- When the two bytes at PC decode to `i`, a step is `exec i` with PC past the word and the tick's random byte arrived:
a free byte when the host has scheduled nothing, the scheduled one otherwise (R120 to R124). The byte order is the spec's
decision D1, log 13; that an odd PC is fetched like any other is D2, log 14; the draw, the schedule and the load flag stand
in the model's own `env`, log 3, 9 and 10. -/
def Obligations.StepRunsTheDecodedInstruction : Prop :=
  ∀ (s : State) (i : Instr), s.status = .running → s.pc.toNat + 1 ≤ 0xFFF →
    decodeWord (wordOfBytes (s.mem.read s.pc.toNat) (s.mem.read (s.pc.toNat + 1))) = .ok i →
    (s.env.schedule = [] →
      step s = exec i { s with
        pc := s.pc + 2
        env := { s.env with
          rand := Config.randomByte s.env.draws, draws := s.env.draws + 1, loadable := false } }) ∧
    (∀ rand rest, s.env.schedule = .tick rand :: rest →
      step s = exec i { s with
        pc := s.pc + 2
        env := { s.env with schedule := rest, rand := rand, draws := s.env.draws + 1, loadable := false } })

/-- A PC of 0xFFF or more: the tick halts with MemoryOutOfBounds, PC kept (the spec's decision D3, log 15). -/
def Obligations.FetchOutsideMemoryHalts : Prop :=
  ∀ (s : State) (rand : Byte), s.status = .running → 0xFFF < s.pc.toNat + 1 →
    ∃ t, applyEvent (.tick rand) s = .next t ∧ t.status = .halted .memoryOutOfBounds ∧
      t = { s with status := t.status, env := t.env }

/-- An unknown word (R96) at PC: the tick halts with UnknownOpcode, PC at the word. Which word stands at PC is the spec's
decision D1, log 13, and at an odd PC D2, log 14; which words are unknown rests on D11, log 19; PC after a fault is D12,
log 1. -/
def Obligations.UnknownWordHalts : Prop :=
  ∀ (s : State) (rand : Byte), s.status = .running → s.pc.toNat + 1 ≤ 0xFFF →
    Word.known (wordOfBytes (s.mem.read s.pc.toNat) (s.mem.read (s.pc.toNat + 1))) = false →
    ∃ t, applyEvent (.tick rand) s = .next t ∧ t.status = .halted .unknownOpcode ∧
      t = { s with status := t.status, env := t.env }

/-- A Tick offered in Halted changes nothing of the machine (R129; the spec's decision D26, log 2). -/
def Obligations.HaltedTickChangesNothing : Prop :=
  ∀ (s : State) (r : HaltReason), s.status = .halted r →
    (s.env.schedule = [] → step s = .next s) ∧
    (∀ rand rest, s.env.schedule = .tick rand :: rest →
      step s = .next { s with env := { s.env with schedule := rest } })

/-- A tick that ends Halted leaves every piece of the machine's state but the status as it was, PC included (R127, R282,
R285; PC after a fault is the spec's decision D12, log 1). -/
def Obligations.FaultingTickIsUndone : Prop :=
  ∀ (s t : State) (rand : Byte) (r : HaltReason), s.status = .running →
    applyEvent (.tick rand) s = .next t → t.status = .halted r →
    t = { s with status := .halted r, env := t.env } ∧
    t.env.params = s.env.params ∧ t.env.schedule = s.env.schedule

/-- Every instruction ends in a next state: it keeps the status, or it is undone and halted (R130, R127). -/
def Obligations.EveryInstructionEndsInANextState : Prop :=
  ∀ (i : Instr) (s : State), ∃ t, exec i s = .next t ∧
    (t.status = s.status ∨ ∃ r, HaltsWith i r s)

/-- Which instruction halts with which reason, and when (R128, R280; the bound on addresses is the spec's decision D3,
log 15, over all n rows of a sprite, clipped or not, D20, log 21; the bound on keys is D10, log 18). -/
def Obligations.HaltReasonsOfInstructions : Prop :=
  ∀ (i : Instr) (s t : State) (r : HaltReason), s.status = .running → exec i s = .next t →
    (t.status = .halted r ↔
      (r = .stackUnderflow ∧ i = .ret ∧ s.stack = []) ∨
      (r = .stackOverflow ∧ (∃ nnn, i = .call nnn) ∧ 16 ≤ s.stack.length) ∨
      (r = .memoryOutOfBounds ∧
        ((∃ x y n, i = .drw x y n ∧ 0 < n.toNat ∧ 0xFFF < s.i.toNat + (n.toNat - 1)) ∨
         (∃ x, i = .bcd x ∧ 0xFFF < s.i.toNat + 2) ∨
         (∃ x, (i = .storeRegs x ∨ i = .loadRegs x) ∧ 0xFFF < s.i.toNat + x.val))) ∨
      (r = .keyOutOfRange ∧ ∃ x, (i = .skp x ∨ i = .sknp x) ∧ 15 < (s.reg x).toNat))

/-! ### Invariants and whole-machine rules -/

/-- Every step, of the engine or the host, keeps the invariant. -/
def Obligations.StepKeepsTheInvariant : Prop :=
  ∀ s t : State, s.Inv → step s = .next t → t.Inv

/-- The state after reset meets the invariant. -/
def Obligations.ResetMeetsTheInvariant : Prop := State.reset.Inv

/-- No instruction writes K, none but Ex9E, ExA1 and Fx0A depends on it, and KeyDown and KeyUp write it (R36; that they do
so in Halted too is the spec's decision D26, log 2). -/
def Obligations.KeypadIsWrittenByTheHostOnly : Prop :=
  (∀ (i : Instr) (s t : State), exec i s = .next t → t.keys = s.keys) ∧
  (∀ (i : Instr) (s t : State) (k : Vector Bool 16),
    (∀ x, i ≠ .skp x ∧ i ≠ .sknp x ∧ i ≠ .waitKey x) → exec i s = .next t →
    exec i { s with keys := k } = .next { t with keys := k }) ∧
  (∀ (s : State) (k : Key) (rand : Byte) (t : State),
    applyEvent (.keyDown k) s = .next { s with keys := s.keys.set k true } ∧
    applyEvent (.keyUp k) s = .next { s with keys := s.keys.set k false } ∧
    (applyEvent (.tick rand) s = .next t → t.keys = s.keys))

/-- 00E0 and Dxyn set the redraw flag, no instruction clears it, RedrawAck does (R33, R293; RedrawAck in Halted is the
spec's decision D26, log 2). -/
def Obligations.RedrawFlagIsSetByClearAndDraw : Prop :=
  (∀ s t : State, exec .cls s = .next t → t.redraw = true) ∧
  (∀ (s t : State) (x y : Reg) (n : BitVec 4), s.status = .running →
    exec (.drw x y n) s = .next t → t.status = .running → t.redraw = true) ∧
  (∀ (i : Instr) (s t : State), exec i s = .next t → s.redraw = true → t.redraw = true) ∧
  (∀ (i : Instr) (s t : State), i ≠ .cls → (∀ x y n, i ≠ .drw x y n) → exec i s = .next t → t.redraw = s.redraw) ∧
  (∀ s : State, applyEvent .redrawAck s = .next { s with redraw := false })

/-- The display changes only by 00E0, Dxyn and Reset (R32, R320; the host's events in Halted are the spec's decision D26,
log 2). -/
def Obligations.DisplayChangesByClearDrawAndReset : Prop :=
  (∀ (i : Instr) (s t : State), i ≠ .cls → (∀ x y n, i ≠ .drw x y n) → exec i s = .next t →
    t.display = s.display) ∧
  (∀ (e : Event) (s t : State), e ≠ .reset → (∀ rand, e ≠ .tick rand) → applyEvent e s = .next t →
    t.display = s.display)

/-- The call stack changes only by 2nnn, which adds one entry, 00EE, which removes one, and Reset, and no other
instruction reads it: any other does the same on any stack (R31; the host's events in Halted are the spec's decision D26,
log 2). -/
def Obligations.StackBelongsToCallAndReturn : Prop :=
  (∀ (i : Instr) (s t : State) (l : List Word), i ≠ .ret → (∀ nnn, i ≠ .call nnn) → exec i s = .next t →
    exec i { s with stack := l } = .next { t with stack := l }) ∧
  (∀ (i : Instr) (s t : State), exec i s = .next t →
    t.stack = s.stack ∨ (∃ nnn, i = .call nnn ∧ t.stack = s.stack ++ [s.pc]) ∨
    (i = .ret ∧ ∃ a, s.stack = t.stack ++ [a])) ∧
  (∀ (e : Event) (s t : State), e ≠ .reset → (∀ rand, e ≠ .tick rand) → applyEvent e s = .next t →
    t.stack = s.stack)

/-- Memory is written by Fx33, at I to I + 2, and Fx55, at I to I + x, and no other instruction (R68). -/
def Obligations.MemoryIsWrittenByStoresOnly : Prop :=
  ∀ (i : Instr) (s t : State) (a : Nat), exec i s = .next t →
    ((∀ x, i = .bcd x → ¬ (s.i.toNat ≤ a ∧ a ≤ s.i.toNat + 2)) ∧
     (∀ x, i = .storeRegs x → ¬ (s.i.toNat ≤ a ∧ a ≤ s.i.toNat + x.val))) →
    t.mem.read a = s.mem.read a

/-- Only Fx15 writes the delay timer and only Fx07 reads it; only Fx18 writes the sound timer and no instruction reads
it: what an instruction does to everything else does not depend on a timer it does not read (R34, R35). -/
def Obligations.TimersBelongToTheirInstructions : Prop :=
  (∀ (i : Instr) (s t : State) (b : Byte), (∀ x, i ≠ .setDelay x) → exec i s = .next t →
    t.dt = s.dt ∧ ((∀ x, i ≠ .readDelay x) → exec i { s with dt := b } = .next { t with dt := b })) ∧
  (∀ (i : Instr) (s t : State) (b : Byte), (∀ x, i ≠ .setSound x) → exec i s = .next t →
    t.st = s.st ∧ exec i { s with st := b } = .next { t with st := b }) ∧
  (∀ (x : Reg) (s : State) (b : Byte),
    exec (.setDelay x) { s with dt := b } = exec (.setDelay x) s ∧
    exec (.setSound x) { s with st := b } = exec (.setSound x) s)

/-- The random byte reaches nothing but Cxnn's register (R207, R295). -/
def Obligations.RandomByteIsReadByRndOnly : Prop :=
  ∀ (i : Instr) (s t : State) (b : Byte), (∀ x nn, i ≠ .rnd x nn) → exec i s = .next t →
    exec i { s with env := { s.env with rand := b } } = .next { t with env := { t.env with rand := b } }

/-- No step changes the parameters of R6 (the model carries them in its own field, log 9). -/
def Obligations.ParametersNeverChange : Prop :=
  ∀ s t : State, step s = .next t → t.env.params = s.env.params

/-- From Halted only Reset leads out, into Running; every other event keeps the status (R129, R286; that Reset gives Running
is the spec's decision D14, log 7; events in Halted are D26, log 2). -/
def Obligations.OnlyResetLeavesHalted : Prop :=
  ∀ (s t : State) (r : HaltReason), s.status = .halted r → step s = .next t →
    t.status = s.status ∨ (t.status = .running ∧ ∃ rest, s.env.schedule = .reset :: rest)

/-! ### Memory -/

/-- A read after a write, every address existing or not (R72). -/
def Obligations.ReadAfterWrite : Prop :=
  ∀ (m : Memory) (a a' : Nat) (b : Byte), m.wf = true → a ≤ 0xFFF →
    (m.write a b).wf = true ∧ (m.write a b).read a' = (if a' = a then b else m.read a')

/-- The canonical form is one: two memories that read the same at every address are the same data (log 8). -/
def Obligations.CanonicalMemoriesWithEqualBytesAreEqual : Prop :=
  ∀ m m' : Memory, m.wf = true → m'.wf = true → (∀ a, m.read a = m'.read a) → m = m'

/-- Registers stored by Fx55 over the word at PC are what the next tick fetches (R74, R331), at any PC: that a store below
0x200 lands is the spec's decision D30, log 23, and that an odd PC is fetched is D2, log 14. -/
def Obligations.StoredBytesAreFetchedNext : Prop :=
  ∀ (s t : State) (x lo : Reg), s.Inv → s.status = .running → exec (.storeRegs x) s = .next t →
    t.status = .running → lo.val + 1 ≤ x.val → s.pc.toNat = s.i.toNat + lo.val →
    t.fetch = some [s.reg lo, s.reg (lo + 1)]

/-! ### Reset, Load and the host's events -/

/-- The event Reset from any state: PC at 0x200, the stack empty, FONT at 0x050..0x09F, Running, everything else from
INIT, nothing kept (R320, R321, R42; the use of INIT and Running are the spec's decision D14, log 7). -/
def Obligations.ResetConstructsTheUnit : Prop :=
  ∀ s : State, s.Inv → ∃ t, applyEvent .reset s = .next t ∧
    t.pc = 0x200 ∧ t.stack = [] ∧ t.status = .running ∧
    (∀ k : Fin 80, t.mem.read (0x050 + k.val) = s.env.params.font[k]) ∧
    (∀ a, ¬ (0x050 ≤ a ∧ a < 0x0A0) → t.mem.read a = s.env.params.init.mem.read a) ∧
    t.v = s.env.params.init.v ∧ t.i = s.env.params.init.i ∧ t.dt = s.env.params.init.dt ∧
    t.st = s.env.params.init.st ∧ t.keys = s.env.params.init.keys ∧
    t.display = s.env.params.init.display ∧ t.redraw = s.env.params.init.redraw

/-- The model's reset state is what Reset makes of any state with the default parameters, with PC at 0x200 and the stack
empty, the source's own values, and Running, the spec's decision D14, log 7. The defaults are D5, D6, D18 and D14, log 4 to
7; what unlisted memory reads as is log 8. -/
def Obligations.ResetStateIsTheDefaultUnit : Prop :=
  State.reset.pc = 0x200 ∧ State.reset.stack = [] ∧ State.reset.status = .running ∧
  (∀ s : State, s.env.params = paramsDefault → s.construct = { State.reset with env := s.construct.env })

/-- A Load that is allowed and whose image fits and is complete puts the bytes at 0x200 and changes nothing else of the
machine (R324). -/
def Obligations.LoadPlacesTheImage : Prop :=
  ∀ (s : State) (bytes : List Byte) (size : Nat), s.Inv → s.env.loadable = true → size ≤ 3584 →
    size ≤ bytes.length →
    ∃ t, applyEvent (.load bytes size) s = .next t ∧
      t.env = { s.env with loadable := false, loadReport := some .ok } ∧
      (∀ k (h : k < bytes.length), k < size → t.mem.read (0x200 + k) = bytes[k]) ∧
      (∀ a, ¬ (0x200 ≤ a ∧ a < 0x200 + size) → t.mem.read a = s.mem.read a) ∧
      t.pc = s.pc ∧ UnchangedExcept [.memory] { s with env := t.env } t

/-- A Load that fails writes nothing and reports why (R324, R325; the order of the checks is the spec's decision D21,
log 10). -/
def Obligations.FailedLoadWritesNothing : Prop :=
  ∀ (s : State) (bytes : List Byte) (size : Nat), s.env.loadable = true →
    (3584 < size → applyEvent (.load bytes size) s =
      .next { s with env := { s.env with loadable := false, loadReport := some .romTooLarge } }) ∧
    (size ≤ 3584 → bytes.length < size → applyEvent (.load bytes size) s =
      .next { s with env := { s.env with loadable := false, loadReport := some .romReadShort } })

/-- Load comes once, after Reset and before the first Tick; at any other time the model refuses it by name (R326; the
spec's decision D21, log 10). -/
def Obligations.LoadIsRefusedOutOfOrder : Prop :=
  (∀ (s : State) (bytes : List Byte) (size : Nat), s.env.loadable = false →
    applyEvent (.load bytes size) s = .refused .loadNotAllowed) ∧
  (∀ (s t : State) (bytes : List Byte) (size : Nat), applyEvent (.load bytes size) s = .next t →
    t.env.loadable = false) ∧
  (∀ (s t : State) (rand : Byte), s.status = .running → applyEvent (.tick rand) s = .next t →
    t.env.loadable = false) ∧
  (∀ s t : State, applyEvent .reset s = .next t → t.env.loadable = true)

/-- TimerTick counts both timers down to 0 and no further, in Running and in Halted (R290; Halted is the spec's decision
D26, log 2). -/
def Obligations.TimerTickCountsDown : Prop :=
  ∀ s : State, ∃ t, applyEvent .timerTick s = .next t ∧
    t.dt.toNat = s.dt.toNat - 1 ∧ t.st.toNat = s.st.toNat - 1 ∧ t.pc = s.pc ∧
    UnchangedExcept [.delay, .sound] s t

/-- One event of the host is applied whole and taken off the schedule; the engine does nothing in that step (R296,
R40). -/
def Obligations.ScheduledEventIsApplied : Prop :=
  ∀ (s : State) (e : Event) (rest : List Event), s.env.schedule = e :: rest →
    step s = applyEvent e { s with env := { s.env with schedule := rest } }

/-! ### Display instructions -/

/-- R140. -/
def Obligations.ClearScreenTurnsEveryPixelOff : Prop :=
  decodeWord 0x00E0 = .ok .cls ∧
  ∀ s : State, ∃ t, exec .cls s = .next t ∧ (∀ c r, t.display.pixel c r = false) ∧ t.redraw = true ∧
    t.pc = s.pc ∧ UnchangedExcept [.display, .redraw] s t

/-- A 1 bit inside the grid toggles its pixel, nothing else changes, VF says whether one of them was on, RD is set; the
sprite is read from the n bytes at I (R142 to R144). That n = 0 reads nothing, clears VF and sets RD at any I is the spec's
decision D20, log 21. -/
def Obligations.DrawTogglesPixelsAndReportsCollision : Prop :=
  ∀ (s : State) (x y : Reg) (n : BitVec 4),
    decodeWord (0xD#4 ++ BitVec.ofFin (w := 4) x ++ BitVec.ofFin (w := 4) y ++ n) = .ok (.drw x y n) ∧
    (n.toNat = 0 ∨ s.i.toNat + (n.toNat - 1) ≤ 0xFFF →
      ∃ t, exec (.drw x y n) s = .next t ∧
        (∀ c r, c < 64 → r < 32 →
          (t.display.pixel c r = true ↔
            ¬ (s.display.pixel c r = true ↔
              spriteBitAt s.mem s.i.toNat ((s.reg x).toNat % 64) ((s.reg y).toNat % 32) n.toNat c r))) ∧
        (t.reg vf = 0 ∨ t.reg vf = 1) ∧
        (t.reg vf = 1 ↔ ∃ c r, c < 64 ∧ r < 32 ∧ s.display.pixel c r = true ∧
          spriteBitAt s.mem s.i.toNat ((s.reg x).toNat % 64) ((s.reg y).toNat % 32) n.toNat c r) ∧
        t.redraw = true ∧ t.pc = s.pc ∧ UnchangedExcept [.reg vf, .display, .redraw] s t)

/-- Dxyn whose last byte is above 0xFFF halts before anything changes, clipped or not (the spec's decisions D3 and D20,
log 15 and 21). -/
def Obligations.DrawOutsideMemoryHalts : Prop :=
  ∀ (s : State) (x y : Reg) (n : BitVec 4), 0 < n.toNat → 0xFFF < s.i.toNat + (n.toNat - 1) →
    HaltsWith (.drw x y n) .memoryOutOfBounds s

/-- The same draw twice restores every pixel, and the second sets VF exactly when the first turned a pixel on; for x and
y other than F (R146). PC may differ between the two. -/
def Obligations.DrawingTwiceRestoresTheDisplay : Prop :=
  ∀ (s t u : State) (x y : Reg) (n : BitVec 4) (pc : Word), x ≠ vf → y ≠ vf →
    (n.toNat = 0 ∨ s.i.toNat + (n.toNat - 1) ≤ 0xFFF) →
    exec (.drw x y n) s = .next t → exec (.drw x y n) (t.setPc pc) = .next u →
    u.display = s.display ∧
    (u.reg vf = 1 ↔ ∃ c r, c < 64 ∧ r < 32 ∧ s.display.pixel c r = false ∧ t.display.pixel c r = true)

/-! ### Control flow -/

/-- R161, with the fault of an empty stack (PC after it is the spec's decision D12, log 1). -/
def Obligations.ReturnPopsTheStack : Prop :=
  decodeWord 0x00EE = .ok .ret ∧
  ∀ (s : State),
    (∀ (l : List Word) (a : Word), s.stack = l ++ [a] →
      ∃ t, exec .ret s = .next t ∧ t.pc = a ∧ t.stack = l ∧ UnchangedExcept [.stack] s t) ∧
    (s.stack = [] → HaltsWith .ret .stackUnderflow s)

/-- R162. -/
def Obligations.JumpSetsThePc : Prop :=
  ∀ (s : State) (nnn : BitVec 12), decodeWord (0x1#4 ++ nnn) = .ok (.jp nnn) ∧
    ∃ t, exec (.jp nnn) s = .next t ∧ t.pc.toNat = nnn.toNat ∧ UnchangedExcept [] s t

/-- R163, with the fault of a full stack (PC after it is the spec's decision D12, log 1). -/
def Obligations.CallPushesTheAdvancedPc : Prop :=
  ∀ (s : State) (nnn : BitVec 12), decodeWord (0x2#4 ++ nnn) = .ok (.call nnn) ∧
    (s.stack.length < 16 →
      ∃ t, exec (.call nnn) s = .next t ∧ t.stack = s.stack ++ [s.pc] ∧ t.pc.toNat = nnn.toNat ∧
        UnchangedExcept [.stack] s t) ∧
    (16 ≤ s.stack.length → HaltsWith (.call nnn) .stackOverflow s)

/-- R165 and R166, the skip being R164's; that PC is taken mod 2^16 is the spec's decision D4 (R28), log 14. -/
def Obligations.SkipsCompareRegisterWithByte : Prop :=
  ∀ (s : State) (x : Reg) (nn : Byte),
    decodeWord (0x3#4 ++ BitVec.ofFin (w := 4) x ++ nn) = .ok (.seByte x nn) ∧
    decodeWord (0x4#4 ++ BitVec.ofFin (w := 4) x ++ nn) = .ok (.sneByte x nn) ∧
    (∃ t, exec (.seByte x nn) s = .next t ∧
      t.pc.toNat = (s.pc.toNat + if s.reg x = nn then 2 else 0) % 0x10000 ∧ UnchangedExcept [] s t) ∧
    (∃ t, exec (.sneByte x nn) s = .next t ∧
      t.pc.toNat = (s.pc.toNat + if s.reg x = nn then 0 else 2) % 0x10000 ∧ UnchangedExcept [] s t)

/-- R167 and R168, whatever the low nibble of the word (the spec's decision D11, log 19); that PC is taken mod 2^16 is D4
(R28), log 14. -/
def Obligations.SkipsCompareTwoRegisters : Prop :=
  ∀ (s : State) (x y : Reg) (n : BitVec 4),
    decodeWord (0x5#4 ++ BitVec.ofFin (w := 4) x ++ BitVec.ofFin (w := 4) y ++ n) = .ok (.seReg x y) ∧
    decodeWord (0x9#4 ++ BitVec.ofFin (w := 4) x ++ BitVec.ofFin (w := 4) y ++ n) = .ok (.sneReg x y) ∧
    (∃ t, exec (.seReg x y) s = .next t ∧
      t.pc.toNat = (s.pc.toNat + if s.reg x = s.reg y then 2 else 0) % 0x10000 ∧ UnchangedExcept [] s t) ∧
    (∃ t, exec (.sneReg x y) s = .next t ∧
      t.pc.toNat = (s.pc.toNat + if s.reg x = s.reg y then 0 else 2) % 0x10000 ∧ UnchangedExcept [] s t)

/-- R176 in both modes (the mode is a parameter, the spec's decision D5, log 4; that the sum is taken mod 2^16 is D4 (R28),
log 14). -/
def Obligations.OffsetJumpFollowsItsMode : Prop :=
  ∀ (s : State) (nnn : BitVec 12), decodeWord (0xB#4 ++ nnn) = .ok (.jpV0 nnn) ∧
    ∃ t, exec (.jpV0 nnn) s = .next t ∧ UnchangedExcept [] s t ∧
      (s.env.params.bnnnMode = .postIncrement →
        t.pc.toNat = (s.pc.toNat + nnn.toNat + (s.reg 0).toNat) % 0x10000) ∧
      (s.env.params.bnnnMode = .absolute → t.pc.toNat = nnn.toNat + (s.reg 0).toNat)

/-! ### ALU -/

/-- R193, R194 and R195. -/
def Obligations.LoadsAndAddByteWriteOneRegister : Prop :=
  ∀ (s : State) (x y : Reg) (nn : Byte),
    decodeWord (0x6#4 ++ BitVec.ofFin (w := 4) x ++ nn) = .ok (.ldByte x nn) ∧
    decodeWord (0x7#4 ++ BitVec.ofFin (w := 4) x ++ nn) = .ok (.addByte x nn) ∧
    decodeWord (0x8#4 ++ BitVec.ofFin (w := 4) x ++ BitVec.ofFin (w := 4) y ++ 0x0#4) = .ok (.ldReg x y) ∧
    (∃ t, exec (.ldByte x nn) s = .next t ∧ t.reg x = nn ∧ t.pc = s.pc ∧ UnchangedExcept [.reg x] s t) ∧
    (∃ t, exec (.addByte x nn) s = .next t ∧ (t.reg x).toNat = ((s.reg x).toNat + nn.toNat) % 256 ∧
      t.pc = s.pc ∧ UnchangedExcept [.reg x] s t) ∧
    (∃ t, exec (.ldReg x y) s = .next t ∧ t.reg x = s.reg y ∧ t.pc = s.pc ∧ UnchangedExcept [.reg x] s t)

/-- R196, R197 and R198 for a destination other than VF (VF as destination: FlagDestinationFollowsItsOrder). -/
def Obligations.LogicInstructionsClearTheFlag : Prop :=
  ∀ (s : State) (x y : Reg),
    decodeWord (0x8#4 ++ BitVec.ofFin (w := 4) x ++ BitVec.ofFin (w := 4) y ++ 0x1#4) = .ok (.or x y) ∧
    decodeWord (0x8#4 ++ BitVec.ofFin (w := 4) x ++ BitVec.ofFin (w := 4) y ++ 0x2#4) = .ok (.and x y) ∧
    decodeWord (0x8#4 ++ BitVec.ofFin (w := 4) x ++ BitVec.ofFin (w := 4) y ++ 0x3#4) = .ok (.xor x y) ∧
    (x ≠ vf →
      (∃ t, exec (.or x y) s = .next t ∧
        (∀ k < 8, (t.reg x).getLsbD k = ((s.reg x).getLsbD k || (s.reg y).getLsbD k)) ∧
        t.reg vf = 0 ∧ t.pc = s.pc ∧ UnchangedExcept [.reg x, .reg vf] s t) ∧
      (∃ t, exec (.and x y) s = .next t ∧
        (∀ k < 8, (t.reg x).getLsbD k = ((s.reg x).getLsbD k && (s.reg y).getLsbD k)) ∧
        t.reg vf = 0 ∧ t.pc = s.pc ∧ UnchangedExcept [.reg x, .reg vf] s t) ∧
      (∃ t, exec (.xor x y) s = .next t ∧
        (∀ k < 8, (t.reg x).getLsbD k = ((s.reg x).getLsbD k ^^ (s.reg y).getLsbD k)) ∧
        t.reg vf = 0 ∧ t.pc = s.pc ∧ UnchangedExcept [.reg x, .reg vf] s t))

/-- R199 for a destination other than VF (VF as destination: FlagDestinationFollowsItsOrder). -/
def Obligations.AddSetsCarry : Prop :=
  ∀ (s : State) (x y : Reg),
    decodeWord (0x8#4 ++ BitVec.ofFin (w := 4) x ++ BitVec.ofFin (w := 4) y ++ 0x4#4) = .ok (.addReg x y) ∧
    (x ≠ vf → ∃ t, exec (.addReg x y) s = .next t ∧
      (t.reg x).toNat = ((s.reg x).toNat + (s.reg y).toNat) % 256 ∧
      t.reg vf = (if (s.reg x).toNat + (s.reg y).toNat > 255 then 1 else 0) ∧
      t.pc = s.pc ∧ UnchangedExcept [.reg x, .reg vf] s t)

/-- R200 and R202 for a destination other than VF (VF as destination: FlagDestinationFollowsItsOrder). -/
def Obligations.SubtractionsSetNoBorrow : Prop :=
  ∀ (s : State) (x y : Reg),
    decodeWord (0x8#4 ++ BitVec.ofFin (w := 4) x ++ BitVec.ofFin (w := 4) y ++ 0x5#4) = .ok (.sub x y) ∧
    decodeWord (0x8#4 ++ BitVec.ofFin (w := 4) x ++ BitVec.ofFin (w := 4) y ++ 0x7#4) = .ok (.subn x y) ∧
    (x ≠ vf →
      (∃ t, exec (.sub x y) s = .next t ∧
        ((t.reg x).toNat : Int) = (((s.reg x).toNat : Int) - (s.reg y).toNat) % 256 ∧
        t.reg vf = (if (s.reg x).toNat ≥ (s.reg y).toNat then 1 else 0) ∧
        t.pc = s.pc ∧ UnchangedExcept [.reg x, .reg vf] s t) ∧
      (∃ t, exec (.subn x y) s = .next t ∧
        ((t.reg x).toNat : Int) = (((s.reg y).toNat : Int) - (s.reg x).toNat) % 256 ∧
        t.reg vf = (if (s.reg y).toNat ≥ (s.reg x).toNat then 1 else 0) ∧
        t.pc = s.pc ∧ UnchangedExcept [.reg x, .reg vf] s t))

/-- R201 and R203 for a destination other than VF (VF as destination: FlagDestinationFollowsItsOrder). -/
def Obligations.ShiftsMoveVyByOneBit : Prop :=
  ∀ (s : State) (x y : Reg),
    decodeWord (0x8#4 ++ BitVec.ofFin (w := 4) x ++ BitVec.ofFin (w := 4) y ++ 0x6#4) = .ok (.shr x y) ∧
    decodeWord (0x8#4 ++ BitVec.ofFin (w := 4) x ++ BitVec.ofFin (w := 4) y ++ 0xE#4) = .ok (.shl x y) ∧
    (x ≠ vf →
      (∃ t, exec (.shr x y) s = .next t ∧ (t.reg x).toNat = (s.reg y).toNat / 2 ∧
        (t.reg vf).toNat = (s.reg y).toNat % 2 ∧ t.pc = s.pc ∧ UnchangedExcept [.reg x, .reg vf] s t) ∧
      (∃ t, exec (.shl x y) s = .next t ∧ (t.reg x).toNat = 2 * (s.reg y).toNat % 256 ∧
        (t.reg vf).toNat = (s.reg y).toNat / 128 ∧ t.pc = s.pc ∧ UnchangedExcept [.reg x, .reg vf] s t))

/-- VF as destination of the eight flag-writing instructions (`vfWriters`): only VF changes, to the flag under FlagLast, to the result
under ResultLast, and to some byte under Any (R190 and R204; the order is a parameter, the spec's decision D6, log 5). -/
def Obligations.FlagDestinationFollowsItsOrder : Prop :=
  ∀ (s : State) (y : Reg) (i : Instr) (res flag : Nat),
    (i, res, flag) ∈ vfWriters s y →
    ∃ t, exec i s = .next t ∧ t.pc = s.pc ∧ UnchangedExcept [.reg vf] s t ∧
      (s.env.params.vfOrder = .flagLast → (t.reg vf).toNat = flag) ∧
      (s.env.params.vfOrder = .resultLast → (t.reg vf).toNat = res)

/-- R207: VX becomes the tick's random byte masked with nn, for every byte (the free input is the spec's decision D15,
log 3). -/
def Obligations.RandomByteIsMasked : Prop :=
  ∀ (s : State) (x : Reg) (nn : Byte), decodeWord (0xC#4 ++ BitVec.ofFin (w := 4) x ++ nn) = .ok (.rnd x nn) ∧
    ∃ t, exec (.rnd x nn) s = .next t ∧
      (∀ k < 8, (t.reg x).getLsbD k = (s.env.rand.getLsbD k && nn.getLsbD k)) ∧
      t.pc = s.pc ∧ UnchangedExcept [.reg x] s t

/-! ### Index register and memory access -/

/-- R230. -/
def Obligations.LoadIndexZeroExtends : Prop :=
  ∀ (s : State) (nnn : BitVec 12), decodeWord (0xA#4 ++ nnn) = .ok (.ldI nnn) ∧
    ∃ t, exec (.ldI nnn) s = .next t ∧ t.i.toNat = nnn.toNat ∧ t.pc = s.pc ∧ UnchangedExcept [.index] s t

/-- R231, VF as VX included: the old VF is added, then VF takes the flag (the 0 branch of the flag and the 16-bit sum are
the spec's decisions D7 and D8, log 16). -/
def Obligations.AddIndexSetsOverflow : Prop :=
  ∀ (s : State) (x : Reg), decodeWord (0xF#4 ++ BitVec.ofFin (w := 4) x ++ 0x1E#8) = .ok (.addI x) ∧
    ∃ t, exec (.addI x) s = .next t ∧ t.i.toNat = (s.i.toNat + (s.reg x).toNat) % 0x10000 ∧
      t.reg vf = (if s.i.toNat + (s.reg x).toNat > 0xFFF then 1 else 0) ∧
      t.pc = s.pc ∧ UnchangedExcept [.index, .reg vf] s t

/-- R232 with the whole byte VX (the spec's decision D9, log 17). -/
def Obligations.GlyphAddressIsFiveTimesVx : Prop :=
  ∀ (s : State) (x : Reg), decodeWord (0xF#4 ++ BitVec.ofFin (w := 4) x ++ 0x29#8) = .ok (.glyph x) ∧
    ∃ t, exec (.glyph x) s = .next t ∧ t.i.toNat = 0x050 + 5 * (s.reg x).toNat ∧
      t.pc = s.pc ∧ UnchangedExcept [.index] s t

/-- R233 where the three bytes exist: hundreds, tens and units at I, I + 1 and I + 2, every other byte as before (that a
store below 0x200 lands is the spec's decision D30, log 23). -/
def Obligations.BcdStoresThreeDigits : Prop :=
  ∀ (s : State) (x : Reg), decodeWord (0xF#4 ++ BitVec.ofFin (w := 4) x ++ 0x33#8) = .ok (.bcd x) ∧
    (s.mem.wf = true → s.i.toNat + 2 ≤ 0xFFF →
      ∃ t, exec (.bcd x) s = .next t ∧
        (t.mem.read s.base).toNat = (s.reg x).toNat / 100 ∧
        (t.mem.read (s.base + 1)).toNat = (s.reg x).toNat / 10 % 10 ∧
        (t.mem.read (s.base + 2)).toNat = (s.reg x).toNat % 10 ∧
        (∀ a, ¬ (s.base ≤ a ∧ a ≤ s.base + 2) → t.mem.read a = s.mem.read a) ∧
        t.pc = s.pc ∧ UnchangedExcept [.memory] s t)

/-- R234 where the bytes exist: V0 to VX at I to I + x, every other byte as before, I past them (that a store below 0x200
lands is the spec's decision D30, log 23; that I is not masked and becomes 0x1000 past the top of memory is D8, log 16). -/
def Obligations.StoreRegistersWritesTheBlock : Prop :=
  ∀ (s : State) (x : Reg), decodeWord (0xF#4 ++ BitVec.ofFin (w := 4) x ++ 0x55#8) = .ok (.storeRegs x) ∧
    (s.mem.wf = true → s.i.toNat + x.val ≤ 0xFFF →
      ∃ t, exec (.storeRegs x) s = .next t ∧
        (∀ r : Reg, r ≤ x → t.mem.read (s.base + r.val) = s.reg r) ∧
        (∀ a, ¬ (s.base ≤ a ∧ a ≤ s.base + x.val) → t.mem.read a = s.mem.read a) ∧
        t.i.toNat = s.i.toNat + x.val + 1 ∧ t.pc = s.pc ∧ UnchangedExcept [.memory, .index] s t)

/-- R235 where the bytes exist: V0 to VX from I to I + x, every other register as before, I past them (that I is not masked
and becomes 0x1000 past the top of memory is the spec's decision D8, log 16). -/
def Obligations.LoadRegistersReadsTheBlock : Prop :=
  ∀ (s : State) (x : Reg), decodeWord (0xF#4 ++ BitVec.ofFin (w := 4) x ++ 0x65#8) = .ok (.loadRegs x) ∧
    (s.i.toNat + x.val ≤ 0xFFF →
      ∃ t, exec (.loadRegs x) s = .next t ∧
        (∀ r : Reg, r ≤ x → t.reg r = s.mem.read (s.base + r.val)) ∧
        (∀ r : Reg, x < r → t.reg r = s.reg r) ∧
        t.i.toNat = s.i.toNat + x.val + 1 ∧ t.pc = s.pc ∧
        UnchangedExcept (.index :: (List.finRange 16).map .reg) s t)

/-- Fx33, Fx55 and Fx65 that reach above 0xFFF halt before anything changes (R63, R127; the spec's decisions D3 and D12,
log 15 and 1). -/
def Obligations.BlockAccessOutsideMemoryHalts : Prop :=
  ∀ (s : State) (x : Reg),
    (0xFFF < s.i.toNat + 2 → HaltsWith (.bcd x) .memoryOutOfBounds s) ∧
    (0xFFF < s.i.toNat + x.val →
      HaltsWith (.storeRegs x) .memoryOutOfBounds s ∧ HaltsWith (.loadRegs x) .memoryOutOfBounds s)

/-! ### Keypad and timers -/

/-- R260 and R261 for VX naming a key; that PC is taken mod 2^16 is the spec's decision D4 (R28), log 14. -/
def Obligations.KeySkipsTestOneKey : Prop :=
  ∀ (s : State) (x : Reg) (k : Key),
    decodeWord (0xE#4 ++ BitVec.ofFin (w := 4) x ++ 0x9E#8) = .ok (.skp x) ∧
    decodeWord (0xE#4 ++ BitVec.ofFin (w := 4) x ++ 0xA1#8) = .ok (.sknp x) ∧
    ((s.reg x).toNat = k.val →
      (∃ t, exec (.skp x) s = .next t ∧
        t.pc.toNat = (s.pc.toNat + if s.keys[k] = true then 2 else 0) % 0x10000 ∧ UnchangedExcept [] s t) ∧
      (∃ t, exec (.sknp x) s = .next t ∧
        t.pc.toNat = (s.pc.toNat + if s.keys[k] = true then 0 else 2) % 0x10000 ∧ UnchangedExcept [] s t))

/-- VX above 15 halts with KeyOutOfRange (R262, the spec's decision D10; log 18). -/
def Obligations.KeyOutOfRangeHalts : Prop :=
  ∀ (s : State) (x : Reg), 15 < (s.reg x).toNat →
    HaltsWith (.skp x) .keyOutOfRange s ∧ HaltsWith (.sknp x) .keyOutOfRange s

/-- R264: the lowest key that is down goes to VX; with none down PC is back at this instruction and nothing else changes
(no release wait, K kept: the spec's decision D24, log 22; the rewind mod 2^16: D4 (R28), log 14). -/
def Obligations.KeyWaitTakesTheLowestKey : Prop :=
  ∀ (s : State) (x : Reg), decodeWord (0xF#4 ++ BitVec.ofFin (w := 4) x ++ 0x0A#8) = .ok (.waitKey x) ∧
    (∀ k : Key, s.keys[k] = true → (∀ j : Key, j < k → s.keys[j] = false) →
      ∃ t, exec (.waitKey x) s = .next t ∧ (t.reg x).toNat = k.val ∧ t.pc = s.pc ∧
        UnchangedExcept [.reg x] s t) ∧
    ((∀ k : Key, s.keys[k] = false) →
      exec (.waitKey x) s = .next { s with pc := s.pc - 2 })

/-- R263, R265 and R266. -/
def Obligations.TimerInstructionsCopyOneByte : Prop :=
  ∀ (s : State) (x : Reg),
    decodeWord (0xF#4 ++ BitVec.ofFin (w := 4) x ++ 0x07#8) = .ok (.readDelay x) ∧
    decodeWord (0xF#4 ++ BitVec.ofFin (w := 4) x ++ 0x15#8) = .ok (.setDelay x) ∧
    decodeWord (0xF#4 ++ BitVec.ofFin (w := 4) x ++ 0x18#8) = .ok (.setSound x) ∧
    (∃ t, exec (.readDelay x) s = .next t ∧ t.reg x = s.dt ∧ t.pc = s.pc ∧ UnchangedExcept [.reg x] s t) ∧
    (∃ t, exec (.setDelay x) s = .next t ∧ t.dt = s.reg x ∧ t.pc = s.pc ∧ UnchangedExcept [.delay] s t) ∧
    (∃ t, exec (.setSound x) s = .next t ∧ t.st = s.reg x ∧ t.pc = s.pc ∧ UnchangedExcept [.sound] s t)
end

