-- ==== Sys2Proof/Laws/Decode.lean ====
section
/-! SUPPORT. The fields of a word built by the encoder's three shapes, and the bytes of a word. -/

namespace Sys2Proof

/-! ### The bits of the shapes -/

theorem getLsbD_wordA (op : BitVec 4) (nnn : BitVec 12) (i : Nat) :
    (wordA op nnn).getLsbD i = if i < 12 then nnn.getLsbD i else op.getLsbD (i - 12) :=
  BitVec.getLsbD_append

theorem getLsbD_wordXI (op : BitVec 4) (x : Reg) (nn : Byte) (i : Nat) :
    (wordXI op x nn).getLsbD i = if i < 8 then nn.getLsbD i
      else if i < 12 then (BitVec.ofFin (w := 4) x).getLsbD (i - 8) else op.getLsbD (i - 12) := by
  refine (BitVec.getLsbD_append (x := op ++ BitVec.ofFin (w := 4) x) (y := nn) (i := i)).trans ?_
  rw [BitVec.getLsbD_append]
  have h1 : i - 8 < 4 ↔ i < 12 := by omega
  have h2 : i - 8 - 4 = i - 12 := by omega
  simp only [h1, h2]

theorem getLsbD_wordXY (op : BitVec 4) (x y : Reg) (n : BitVec 4) (i : Nat) :
    (wordXY op x y n).getLsbD i = if i < 4 then n.getLsbD i
      else if i < 8 then (BitVec.ofFin (w := 4) y).getLsbD (i - 4)
      else if i < 12 then (BitVec.ofFin (w := 4) x).getLsbD (i - 8) else op.getLsbD (i - 12) := by
  refine (BitVec.getLsbD_append (x := op ++ BitVec.ofFin (w := 4) x ++ BitVec.ofFin (w := 4) y) (y := n)
    (i := i)).trans ?_
  rw [BitVec.getLsbD_append, BitVec.getLsbD_append]
  have h1 : i - 4 < 4 ↔ i < 8 := by omega
  have h2 : i - 8 < 4 ↔ i < 12 := by omega
  have h3 : i - 4 - 4 = i - 8 := by omega
  have h4 : i - 8 - 4 = i - 12 := by omega
  simp only [h1, h2, h3, h4]

/-! ### The fields of the shapes -/

@[simp] theorem fieldsOf_wordA (op : BitVec 4) (nnn : BitVec 12) :
    (fieldsOf (wordA op nnn)).op = op ∧ (fieldsOf (wordA op nnn)).nnn = nnn := by
  constructor
  · ext i hi
    have : ¬ 12 + i < 12 := by omega
    simp [fieldsOf, getLsbD_wordA, this, BitVec.getLsbD_eq_getElem hi]
  · ext i hi
    simp [fieldsOf, getLsbD_wordA, hi]

@[simp] theorem fieldsOf_wordXI (op : BitVec 4) (x : Reg) (nn : Byte) :
    (fieldsOf (wordXI op x nn)).op = op ∧ (fieldsOf (wordXI op x nn)).x = x ∧ (fieldsOf (wordXI op x nn)).nn = nn := by
  refine ⟨?_, ?_, ?_⟩
  · ext i hi
    have h1 : ¬ 12 + i < 8 := by omega
    have h2 : ¬ 12 + i < 12 := by omega
    simp [fieldsOf, getLsbD_wordXI, h1, h2, BitVec.getLsbD_eq_getElem hi]
  · have : (wordXI op x nn).extractLsb' 8 4 = BitVec.ofFin (w := 4) x := by
      ext i hi
      have h1 : ¬ 8 + i < 8 := by omega
      have h2 : 8 + i < 12 := by omega
      simp [getLsbD_wordXI, h1, h2, BitVec.getLsbD_eq_getElem hi]
    simp [fieldsOf, this]
  · ext i hi
    simp [fieldsOf, getLsbD_wordXI, hi]

@[simp] theorem fieldsOf_wordXY (op : BitVec 4) (x y : Reg) (n : BitVec 4) :
    (fieldsOf (wordXY op x y n)).op = op ∧ (fieldsOf (wordXY op x y n)).x = x ∧
      (fieldsOf (wordXY op x y n)).y = y ∧ (fieldsOf (wordXY op x y n)).n = n := by
  refine ⟨?_, ?_, ?_, ?_⟩
  · ext i hi
    have h1 : ¬ 12 + i < 4 := by omega
    have h2 : ¬ 12 + i < 8 := by omega
    have h3 : ¬ 12 + i < 12 := by omega
    simp [fieldsOf, getLsbD_wordXY, h1, h2, h3, BitVec.getLsbD_eq_getElem hi]
  · have : (wordXY op x y n).extractLsb' 8 4 = BitVec.ofFin (w := 4) x := by
      ext i hi
      have h1 : ¬ 8 + i < 4 := by omega
      have h2 : ¬ 8 + i < 8 := by omega
      have h3 : 8 + i < 12 := by omega
      simp [getLsbD_wordXY, h1, h2, h3, BitVec.getLsbD_eq_getElem hi]
    simp [fieldsOf, this]
  · have : (wordXY op x y n).extractLsb' 4 4 = BitVec.ofFin (w := 4) y := by
      ext i hi
      have h1 : ¬ 4 + i < 4 := by omega
      have h2 : 4 + i < 8 := by omega
      simp [getLsbD_wordXY, h1, h2, BitVec.getLsbD_eq_getElem hi]
    simp [fieldsOf, this]
  · ext i hi
    simp [fieldsOf, getLsbD_wordXY, hi]

/-! ### A word from its fields -/

/-- A word is its fields again, in each of the three shapes (R90, R92). -/
theorem wordA_fieldsOf (w : Word) : wordA (fieldsOf w).op (fieldsOf w).nnn = w := by
  apply BitVec.eq_of_getLsbD_eq
  intro i hi
  rw [getLsbD_wordA]
  split
  · rename_i h
    simp [fieldsOf, h]
  · have h1 : i - 12 < 4 := by omega
    have h2 : 12 + (i - 12) = i := by omega
    simp [fieldsOf, h1, h2]

/-- A register number is the bits it was read from. -/
theorem ofFin_extract (w : Word) (k : Nat) : BitVec.ofFin (w := 4) (w.extractLsb' k 4).toFin = w.extractLsb' k 4 := rfl

theorem wordXI_fieldsOf (w : Word) : wordXI (fieldsOf w).op (fieldsOf w).x (fieldsOf w).nn = w := by
  apply BitVec.eq_of_getLsbD_eq
  intro i hi
  rw [getLsbD_wordXI]
  simp only [fieldsOf, ofFin_extract, BitVec.getLsbD_extractLsb']
  split
  · rename_i h; simp [h]
  · split
    · have h1 : i - 8 < 4 := by omega
      have h2 : 8 + (i - 8) = i := by omega
      simp [h1, h2]
    · have h1 : i - 12 < 4 := by omega
      have h2 : 12 + (i - 12) = i := by omega
      simp [h1, h2]

theorem wordXY_fieldsOf (w : Word) : wordXY (fieldsOf w).op (fieldsOf w).x (fieldsOf w).y (fieldsOf w).n = w := by
  apply BitVec.eq_of_getLsbD_eq
  intro i hi
  rw [getLsbD_wordXY]
  simp only [fieldsOf, ofFin_extract, BitVec.getLsbD_extractLsb']
  split
  · rename_i h; simp [h]
  · split
    · have h1 : i - 4 < 4 := by omega
      have h2 : 4 + (i - 4) = i := by omega
      simp [h1, h2]
    · split
      · have h1 : i - 8 < 4 := by omega
        have h2 : 8 + (i - 8) = i := by omega
        simp [h1, h2]
      · have h1 : i - 12 < 4 := by omega
        have h2 : 12 + (i - 12) = i := by omega
        simp [h1, h2]
/-! ### The bytes of a word -/

/-- The two bytes of a word make the word again (R60, R101). -/
@[simp] theorem wordOfBytes_bytes (w : Word) : wordOfBytes (w.extractLsb' 8 8) (w.extractLsb' 0 8) = w := by
  have h : ∀ i, (wordOfBytes (w.extractLsb' 8 8) (w.extractLsb' 0 8)).getLsbD i =
      if i < 8 then (w.extractLsb' 0 8).getLsbD i else (w.extractLsb' 8 8).getLsbD (i - 8) := fun i =>
    BitVec.getLsbD_append
  apply BitVec.eq_of_getLsbD_eq
  intro i hi
  rw [h]
  split
  · rename_i h8
    simp [h8]
  · have h1 : i - 8 < 8 := by omega
    have h2 : 8 + (i - 8) = i := by omega
    simp [h1, h2]

/-- Decoding a word's bytes is decoding the word. -/
theorem decode_bytesOfWord (w : Word) (rest : List Byte) :
    decode (bytesOfWord w ++ rest) = (decodeWord w).map fun i => (i, rest) := by
  simp only [bytesOfWord, List.cons_append, List.nil_append, decode, wordOfBytes_bytes]
  cases decodeWord w <;> rfl

end Sys2Proof
end

