-- ==== Sys2Proof/Laws/Memory.lean ====
section
/-! SUPPORT. The laws of memory: every operation keeps the canonical form, a read after a write, and what the
bounds-checked accesses answer. -/

namespace Sys2Proof

theorem Memory.wfFrom_cons (lo a : Nat) (b : Byte) (m : Memory) :
    Memory.wfFrom lo ((a, b) :: m) = true ↔
      lo ≤ a ∧ a ≤ 0xFFF ∧ b ≠ Memory.unlisted a ∧ Memory.wfFrom (a + 1) m = true := by
  simp [Memory.wfFrom, and_assoc]

theorem Memory.wfFrom_mono {lo lo' : Nat} (h : lo' ≤ lo) {m : Memory} (hm : Memory.wfFrom lo m = true) :
    Memory.wfFrom lo' m = true := by
  cases m with
  | nil => rfl
  | cons p rest =>
    obtain ⟨a, b⟩ := p
    rw [Memory.wfFrom_cons] at hm ⊢
    exact ⟨by omega, hm.2⟩

/-- Below the first listed address everything is unlisted. -/
theorem Memory.read_of_lt {m : Memory} {lo a : Nat} (hm : Memory.wfFrom lo m = true) (h : a < lo) :
    m.read a = Memory.unlisted a := by
  induction m generalizing lo with
  | nil => rfl
  | cons p rest ih =>
    obtain ⟨k, b⟩ := p
    rw [Memory.wfFrom_cons] at hm
    have hk : ¬ k = a := by omega
    simp only [Memory.read, hk, if_false]
    exact ih hm.2.2.2 (by omega)

theorem Memory.wfFrom_consByte {lo a : Nat} {b : Byte} {m : Memory} (hlo : lo ≤ a) (ha : a ≤ 0xFFF)
    (hm : Memory.wfFrom (a + 1) m = true) : Memory.wfFrom lo (Memory.cons a b m) = true := by
  unfold Memory.cons
  split
  · exact Memory.wfFrom_mono (by omega) hm
  · rename_i hb
    rw [Memory.wfFrom_cons]
    exact ⟨hlo, ha, hb, hm⟩

theorem Memory.wfFrom_write {lo a : Nat} {b : Byte} {m : Memory} (hlo : lo ≤ a) (ha : a ≤ 0xFFF)
    (hm : Memory.wfFrom lo m = true) : Memory.wfFrom lo (m.write a b) = true := by
  induction m generalizing lo with
  | nil => exact Memory.wfFrom_consByte hlo ha rfl
  | cons p rest ih =>
    obtain ⟨k, c⟩ := p
    have hm' := hm
    rw [Memory.wfFrom_cons] at hm'
    unfold Memory.write
    split
    · refine Memory.wfFrom_consByte hlo ha ?_
      rw [Memory.wfFrom_cons]
      exact ⟨by omega, hm'.2⟩
    · split
      · subst a
        exact Memory.wfFrom_consByte hlo ha hm'.2.2.2
      · rw [Memory.wfFrom_cons]
        exact ⟨hm'.1, hm'.2.1, hm'.2.2.1, ih (by omega) hm'.2.2.2⟩

/-- A write within the address space keeps the canonical form. -/
theorem Memory.wf_write {m : Memory} {a : Nat} (b : Byte) (ha : a ≤ 0xFFF) (hm : m.wf = true) :
    (m.write a b).wf = true := Memory.wfFrom_write (Nat.zero_le a) ha hm

theorem Memory.read_consByte_ne {a a' : Nat} {b : Byte} {m : Memory} (h : a' ≠ a) :
    (Memory.cons a b m).read a' = m.read a' := by
  unfold Memory.cons
  split
  · rfl
  · simp [Memory.read, Ne.symm h]

theorem Memory.read_consByte_self {a : Nat} {b : Byte} {m : Memory} (hm : Memory.wfFrom (a + 1) m = true) :
    (Memory.cons a b m).read a = b := by
  unfold Memory.cons
  split
  · rename_i hb
    rw [Memory.read_of_lt hm (by omega), hb]
  · simp [Memory.read]

/-- A write leaves every other address alone, in canonical form or not. -/
theorem Memory.read_write_ne {m : Memory} {a a' : Nat} {b : Byte} (h : a' ≠ a) :
    (m.write a b).read a' = m.read a' := by
  induction m with
  | nil => exact Memory.read_consByte_ne h
  | cons p rest ih =>
    obtain ⟨k, c⟩ := p
    unfold Memory.write
    split
    · exact Memory.read_consByte_ne h
    · split
      · subst a
        rw [Memory.read_consByte_ne h]
        simp [Memory.read, Ne.symm h]
      · simp [Memory.read, ih]

theorem Memory.read_write_self_from {lo : Nat} {m : Memory} {a : Nat} {b : Byte}
    (hm : Memory.wfFrom lo m = true) : (m.write a b).read a = b := by
  induction m generalizing lo with
  | nil => exact Memory.read_consByte_self rfl
  | cons p rest ih =>
    obtain ⟨k, c⟩ := p
    have hm' := hm
    rw [Memory.wfFrom_cons] at hm'
    unfold Memory.write
    split
    · refine Memory.read_consByte_self ?_
      rw [Memory.wfFrom_cons]
      exact ⟨by omega, hm'.2⟩
    · split
      · subst a
        exact Memory.read_consByte_self hm'.2.2.2
      · rename_i h1 h2
        have hk : ¬ k = a := fun e => h2 e.symm
        simp only [Memory.read, hk, if_false]
        exact ih hm'.2.2.2

/-- A read after a write (R72). -/
theorem Memory.read_write {m : Memory} (hm : m.wf = true) (a a' : Nat) (b : Byte) :
    (m.write a b).read a' = if a' = a then b else m.read a' := by
  split
  · subst a'
    exact Memory.read_write_self_from hm
  · exact Memory.read_write_ne ‹_›

theorem Memory.wf_writeBytes {m : Memory} {a : Nat} {bs : List Byte} (hm : m.wf = true)
    (ha : a + bs.length ≤ 0x1000) : (m.writeBytes a bs).wf = true := by
  induction bs generalizing m a with
  | nil => exact hm
  | cons b bs ih =>
    simp only [List.length_cons] at ha
    exact ih (Memory.wf_write b (by omega) hm) (by omega)

/-- Writing consecutive bytes leaves every address outside them alone. -/
theorem Memory.read_writeBytes_outside {m : Memory} {a a' : Nat} {bs : List Byte}
    (h : a' < a ∨ a + bs.length ≤ a') : (m.writeBytes a bs).read a' = m.read a' := by
  induction bs generalizing m a with
  | nil => rfl
  | cons b bs ih =>
    simp only [List.length_cons] at h
    rw [Memory.writeBytes, ih (by omega), Memory.read_write_ne (by omega)]

/-- Writing consecutive bytes puts each at its place. -/
theorem Memory.read_writeBytes_inside {m : Memory} {a : Nat} {bs : List Byte} (hm : m.wf = true)
    (ha : a + bs.length ≤ 0x1000) (k : Nat) (hk : k < bs.length) : (m.writeBytes a bs).read (a + k) = bs[k] := by
  induction bs generalizing m a k with
  | nil => simp at hk
  | cons b bs ih =>
    simp only [List.length_cons] at ha hk
    have hw : (m.write a b).wf = true := Memory.wf_write b (by omega) hm
    cases k with
    | zero =>
      rw [Memory.writeBytes, Memory.read_writeBytes_outside (by omega), Nat.add_zero,
        Memory.read_write hm, if_pos rfl]
      rfl
    | succ k =>
      have := ih (m := m.write a b) (a := a + 1) hw (by omega) k (by omega)
      rw [Memory.writeBytes, show a + (k + 1) = a + 1 + k by omega, this]
      rfl

@[simp] theorem Memory.length_readBytes (m : Memory) (a n : Nat) : (m.readBytes a n).length = n := by
  induction n generalizing a with
  | zero => rfl
  | succ n ih => simp [Memory.readBytes, ih]

theorem Memory.getElem_readBytes (m : Memory) (a n k : Nat) (h : k < (m.readBytes a n).length) :
    (m.readBytes a n)[k] = m.read (a + k) := by
  induction n generalizing a k with
  | zero => simp [Memory.readBytes] at h
  | succ n ih =>
    cases k with
    | zero => simp [Memory.readBytes]
    | succ k => simp [Memory.readBytes, ih, Nat.add_assoc, Nat.add_comm 1 k]

theorem blockExists_iff (a n : Nat) : blockExists a n = true ↔ n = 0 ∨ a + n ≤ 0x1000 := by
  simp [blockExists]
  omega

/-- What a bounds-checked read answers. -/
theorem Memory.readBlock_eq_some {m : Memory} {a n : Nat} {bs : List Byte} :
    m.readBlock a n = some bs ↔ (n = 0 ∨ a + n ≤ 0x1000) ∧ bs = m.readBytes a n := by
  rw [← blockExists_iff]
  unfold Memory.readBlock
  split <;> simp [*, eq_comm]

theorem Memory.readBlock_eq_none {m : Memory} {a n : Nat} :
    m.readBlock a n = none ↔ n ≠ 0 ∧ 0x1000 < a + n := by
  have h := blockExists_iff a n
  unfold Memory.readBlock
  split
  · rename_i hb
    have := h.mp hb
    simp only [reduceCtorEq, false_iff]
    omega
  · rename_i hb
    simp only [true_iff]
    rw [h] at hb
    omega

/-- What a bounds-checked write answers. -/
theorem Memory.writeBlock_eq_some {m m' : Memory} {a : Nat} {bs : List Byte} :
    m.writeBlock a bs = some m' ↔ (bs.length = 0 ∨ a + bs.length ≤ 0x1000) ∧ m' = m.writeBytes a bs := by
  rw [← blockExists_iff]
  unfold Memory.writeBlock
  split <;> simp [*, eq_comm]

theorem Memory.writeBlock_eq_none {m : Memory} {a : Nat} {bs : List Byte} :
    m.writeBlock a bs = none ↔ bs.length ≠ 0 ∧ 0x1000 < a + bs.length := by
  have h := blockExists_iff a bs.length
  unfold Memory.writeBlock
  split
  · rename_i hb
    have := h.mp hb
    simp only [reduceCtorEq, false_iff]
    omega
  · rename_i hb
    simp only [true_iff]
    rw [h] at hb
    omega

theorem Memory.wf_writeBlock {m m' : Memory} {a : Nat} {bs : List Byte} (hm : m.wf = true)
    (h : m.writeBlock a bs = some m') : m'.wf = true := by
  obtain ⟨hb, rfl⟩ := Memory.writeBlock_eq_some.mp h
  rcases hb with hb | hb
  · rw [List.length_eq_zero_iff] at hb
    subst hb
    exact hm
  · exact Memory.wf_writeBytes hm hb

end Sys2Proof
end

