-- ==== Sys2Proof/Laws/State.lean ====
section
/-! SUPPORT. One lemma per field per update of the state, so that no proof unfolds a record update; compound updates are
rewritten to the setters, which are the simp normal form. -/

namespace Sys2Proof.Machine

variable (s : State)

/-! ### setReg -/

@[simp] theorem State.setReg_v (x : Reg) (b : Byte) : (s.setReg x b).v = s.v.set x b := rfl
@[simp] theorem State.setReg_i (x : Reg) (b : Byte) : (s.setReg x b).i = s.i := rfl
@[simp] theorem State.setReg_pc (x : Reg) (b : Byte) : (s.setReg x b).pc = s.pc := rfl
@[simp] theorem State.setReg_mem (x : Reg) (b : Byte) : (s.setReg x b).mem = s.mem := rfl
@[simp] theorem State.setReg_dt (x : Reg) (b : Byte) : (s.setReg x b).dt = s.dt := rfl
@[simp] theorem State.setReg_st (x : Reg) (b : Byte) : (s.setReg x b).st = s.st := rfl
@[simp] theorem State.setReg_keys (x : Reg) (b : Byte) : (s.setReg x b).keys = s.keys := rfl
@[simp] theorem State.setReg_stack (x : Reg) (b : Byte) : (s.setReg x b).stack = s.stack := rfl
@[simp] theorem State.setReg_display (x : Reg) (b : Byte) : (s.setReg x b).display = s.display := rfl
@[simp] theorem State.setReg_redraw (x : Reg) (b : Byte) : (s.setReg x b).redraw = s.redraw := rfl
@[simp] theorem State.setReg_status (x : Reg) (b : Byte) : (s.setReg x b).status = s.status := rfl
@[simp] theorem State.setReg_env (x : Reg) (b : Byte) : (s.setReg x b).env = s.env := rfl

/-! ### setV -/

@[simp] theorem State.setV_v (a : Vector Byte 16) : (s.setV a).v = a := rfl
@[simp] theorem State.setV_i (a : Vector Byte 16) : (s.setV a).i = s.i := rfl
@[simp] theorem State.setV_pc (a : Vector Byte 16) : (s.setV a).pc = s.pc := rfl
@[simp] theorem State.setV_mem (a : Vector Byte 16) : (s.setV a).mem = s.mem := rfl
@[simp] theorem State.setV_dt (a : Vector Byte 16) : (s.setV a).dt = s.dt := rfl
@[simp] theorem State.setV_st (a : Vector Byte 16) : (s.setV a).st = s.st := rfl
@[simp] theorem State.setV_keys (a : Vector Byte 16) : (s.setV a).keys = s.keys := rfl
@[simp] theorem State.setV_stack (a : Vector Byte 16) : (s.setV a).stack = s.stack := rfl
@[simp] theorem State.setV_display (a : Vector Byte 16) : (s.setV a).display = s.display := rfl
@[simp] theorem State.setV_redraw (a : Vector Byte 16) : (s.setV a).redraw = s.redraw := rfl
@[simp] theorem State.setV_status (a : Vector Byte 16) : (s.setV a).status = s.status := rfl
@[simp] theorem State.setV_env (a : Vector Byte 16) : (s.setV a).env = s.env := rfl

/-! ### setI -/

@[simp] theorem State.setI_v (a : Word) : (s.setI a).v = s.v := rfl
@[simp] theorem State.setI_i (a : Word) : (s.setI a).i = a := rfl
@[simp] theorem State.setI_pc (a : Word) : (s.setI a).pc = s.pc := rfl
@[simp] theorem State.setI_mem (a : Word) : (s.setI a).mem = s.mem := rfl
@[simp] theorem State.setI_dt (a : Word) : (s.setI a).dt = s.dt := rfl
@[simp] theorem State.setI_st (a : Word) : (s.setI a).st = s.st := rfl
@[simp] theorem State.setI_keys (a : Word) : (s.setI a).keys = s.keys := rfl
@[simp] theorem State.setI_stack (a : Word) : (s.setI a).stack = s.stack := rfl
@[simp] theorem State.setI_display (a : Word) : (s.setI a).display = s.display := rfl
@[simp] theorem State.setI_redraw (a : Word) : (s.setI a).redraw = s.redraw := rfl
@[simp] theorem State.setI_status (a : Word) : (s.setI a).status = s.status := rfl
@[simp] theorem State.setI_env (a : Word) : (s.setI a).env = s.env := rfl
@[simp] theorem State.setI_reg (a : Word) (r : Reg) : (s.setI a).reg r = s.reg r := rfl

/-! ### setPc -/

@[simp] theorem State.setPc_v (a : Word) : (s.setPc a).v = s.v := rfl
@[simp] theorem State.setPc_i (a : Word) : (s.setPc a).i = s.i := rfl
@[simp] theorem State.setPc_pc (a : Word) : (s.setPc a).pc = a := rfl
@[simp] theorem State.setPc_mem (a : Word) : (s.setPc a).mem = s.mem := rfl
@[simp] theorem State.setPc_dt (a : Word) : (s.setPc a).dt = s.dt := rfl
@[simp] theorem State.setPc_st (a : Word) : (s.setPc a).st = s.st := rfl
@[simp] theorem State.setPc_keys (a : Word) : (s.setPc a).keys = s.keys := rfl
@[simp] theorem State.setPc_stack (a : Word) : (s.setPc a).stack = s.stack := rfl
@[simp] theorem State.setPc_display (a : Word) : (s.setPc a).display = s.display := rfl
@[simp] theorem State.setPc_redraw (a : Word) : (s.setPc a).redraw = s.redraw := rfl
@[simp] theorem State.setPc_status (a : Word) : (s.setPc a).status = s.status := rfl
@[simp] theorem State.setPc_env (a : Word) : (s.setPc a).env = s.env := rfl
@[simp] theorem State.setPc_reg (a : Word) (r : Reg) : (s.setPc a).reg r = s.reg r := rfl

/-! ### setMem -/

@[simp] theorem State.setMem_v (a : Memory) : (s.setMem a).v = s.v := rfl
@[simp] theorem State.setMem_i (a : Memory) : (s.setMem a).i = s.i := rfl
@[simp] theorem State.setMem_pc (a : Memory) : (s.setMem a).pc = s.pc := rfl
@[simp] theorem State.setMem_mem (a : Memory) : (s.setMem a).mem = a := rfl
@[simp] theorem State.setMem_dt (a : Memory) : (s.setMem a).dt = s.dt := rfl
@[simp] theorem State.setMem_st (a : Memory) : (s.setMem a).st = s.st := rfl
@[simp] theorem State.setMem_keys (a : Memory) : (s.setMem a).keys = s.keys := rfl
@[simp] theorem State.setMem_stack (a : Memory) : (s.setMem a).stack = s.stack := rfl
@[simp] theorem State.setMem_display (a : Memory) : (s.setMem a).display = s.display := rfl
@[simp] theorem State.setMem_redraw (a : Memory) : (s.setMem a).redraw = s.redraw := rfl
@[simp] theorem State.setMem_status (a : Memory) : (s.setMem a).status = s.status := rfl
@[simp] theorem State.setMem_env (a : Memory) : (s.setMem a).env = s.env := rfl
@[simp] theorem State.setMem_reg (a : Memory) (r : Reg) : (s.setMem a).reg r = s.reg r := rfl

/-! ### setDt -/

@[simp] theorem State.setDt_v (a : Byte) : (s.setDt a).v = s.v := rfl
@[simp] theorem State.setDt_i (a : Byte) : (s.setDt a).i = s.i := rfl
@[simp] theorem State.setDt_pc (a : Byte) : (s.setDt a).pc = s.pc := rfl
@[simp] theorem State.setDt_mem (a : Byte) : (s.setDt a).mem = s.mem := rfl
@[simp] theorem State.setDt_dt (a : Byte) : (s.setDt a).dt = a := rfl
@[simp] theorem State.setDt_st (a : Byte) : (s.setDt a).st = s.st := rfl
@[simp] theorem State.setDt_keys (a : Byte) : (s.setDt a).keys = s.keys := rfl
@[simp] theorem State.setDt_stack (a : Byte) : (s.setDt a).stack = s.stack := rfl
@[simp] theorem State.setDt_display (a : Byte) : (s.setDt a).display = s.display := rfl
@[simp] theorem State.setDt_redraw (a : Byte) : (s.setDt a).redraw = s.redraw := rfl
@[simp] theorem State.setDt_status (a : Byte) : (s.setDt a).status = s.status := rfl
@[simp] theorem State.setDt_env (a : Byte) : (s.setDt a).env = s.env := rfl
@[simp] theorem State.setDt_reg (a : Byte) (r : Reg) : (s.setDt a).reg r = s.reg r := rfl

/-! ### setSt -/

@[simp] theorem State.setSt_v (a : Byte) : (s.setSt a).v = s.v := rfl
@[simp] theorem State.setSt_i (a : Byte) : (s.setSt a).i = s.i := rfl
@[simp] theorem State.setSt_pc (a : Byte) : (s.setSt a).pc = s.pc := rfl
@[simp] theorem State.setSt_mem (a : Byte) : (s.setSt a).mem = s.mem := rfl
@[simp] theorem State.setSt_dt (a : Byte) : (s.setSt a).dt = s.dt := rfl
@[simp] theorem State.setSt_st (a : Byte) : (s.setSt a).st = a := rfl
@[simp] theorem State.setSt_keys (a : Byte) : (s.setSt a).keys = s.keys := rfl
@[simp] theorem State.setSt_stack (a : Byte) : (s.setSt a).stack = s.stack := rfl
@[simp] theorem State.setSt_display (a : Byte) : (s.setSt a).display = s.display := rfl
@[simp] theorem State.setSt_redraw (a : Byte) : (s.setSt a).redraw = s.redraw := rfl
@[simp] theorem State.setSt_status (a : Byte) : (s.setSt a).status = s.status := rfl
@[simp] theorem State.setSt_env (a : Byte) : (s.setSt a).env = s.env := rfl
@[simp] theorem State.setSt_reg (a : Byte) (r : Reg) : (s.setSt a).reg r = s.reg r := rfl

/-! ### setKeys -/

@[simp] theorem State.setKeys_v (a : Vector Bool 16) : (s.setKeys a).v = s.v := rfl
@[simp] theorem State.setKeys_i (a : Vector Bool 16) : (s.setKeys a).i = s.i := rfl
@[simp] theorem State.setKeys_pc (a : Vector Bool 16) : (s.setKeys a).pc = s.pc := rfl
@[simp] theorem State.setKeys_mem (a : Vector Bool 16) : (s.setKeys a).mem = s.mem := rfl
@[simp] theorem State.setKeys_dt (a : Vector Bool 16) : (s.setKeys a).dt = s.dt := rfl
@[simp] theorem State.setKeys_st (a : Vector Bool 16) : (s.setKeys a).st = s.st := rfl
@[simp] theorem State.setKeys_keys (a : Vector Bool 16) : (s.setKeys a).keys = a := rfl
@[simp] theorem State.setKeys_stack (a : Vector Bool 16) : (s.setKeys a).stack = s.stack := rfl
@[simp] theorem State.setKeys_display (a : Vector Bool 16) : (s.setKeys a).display = s.display := rfl
@[simp] theorem State.setKeys_redraw (a : Vector Bool 16) : (s.setKeys a).redraw = s.redraw := rfl
@[simp] theorem State.setKeys_status (a : Vector Bool 16) : (s.setKeys a).status = s.status := rfl
@[simp] theorem State.setKeys_env (a : Vector Bool 16) : (s.setKeys a).env = s.env := rfl
@[simp] theorem State.setKeys_reg (a : Vector Bool 16) (r : Reg) : (s.setKeys a).reg r = s.reg r := rfl

/-! ### setStack -/

@[simp] theorem State.setStack_v (a : List Word) : (s.setStack a).v = s.v := rfl
@[simp] theorem State.setStack_i (a : List Word) : (s.setStack a).i = s.i := rfl
@[simp] theorem State.setStack_pc (a : List Word) : (s.setStack a).pc = s.pc := rfl
@[simp] theorem State.setStack_mem (a : List Word) : (s.setStack a).mem = s.mem := rfl
@[simp] theorem State.setStack_dt (a : List Word) : (s.setStack a).dt = s.dt := rfl
@[simp] theorem State.setStack_st (a : List Word) : (s.setStack a).st = s.st := rfl
@[simp] theorem State.setStack_keys (a : List Word) : (s.setStack a).keys = s.keys := rfl
@[simp] theorem State.setStack_stack (a : List Word) : (s.setStack a).stack = a := rfl
@[simp] theorem State.setStack_display (a : List Word) : (s.setStack a).display = s.display := rfl
@[simp] theorem State.setStack_redraw (a : List Word) : (s.setStack a).redraw = s.redraw := rfl
@[simp] theorem State.setStack_status (a : List Word) : (s.setStack a).status = s.status := rfl
@[simp] theorem State.setStack_env (a : List Word) : (s.setStack a).env = s.env := rfl
@[simp] theorem State.setStack_reg (a : List Word) (r : Reg) : (s.setStack a).reg r = s.reg r := rfl

/-! ### setDisplay -/

@[simp] theorem State.setDisplay_v (a : Display) : (s.setDisplay a).v = s.v := rfl
@[simp] theorem State.setDisplay_i (a : Display) : (s.setDisplay a).i = s.i := rfl
@[simp] theorem State.setDisplay_pc (a : Display) : (s.setDisplay a).pc = s.pc := rfl
@[simp] theorem State.setDisplay_mem (a : Display) : (s.setDisplay a).mem = s.mem := rfl
@[simp] theorem State.setDisplay_dt (a : Display) : (s.setDisplay a).dt = s.dt := rfl
@[simp] theorem State.setDisplay_st (a : Display) : (s.setDisplay a).st = s.st := rfl
@[simp] theorem State.setDisplay_keys (a : Display) : (s.setDisplay a).keys = s.keys := rfl
@[simp] theorem State.setDisplay_stack (a : Display) : (s.setDisplay a).stack = s.stack := rfl
@[simp] theorem State.setDisplay_display (a : Display) : (s.setDisplay a).display = a := rfl
@[simp] theorem State.setDisplay_redraw (a : Display) : (s.setDisplay a).redraw = s.redraw := rfl
@[simp] theorem State.setDisplay_status (a : Display) : (s.setDisplay a).status = s.status := rfl
@[simp] theorem State.setDisplay_env (a : Display) : (s.setDisplay a).env = s.env := rfl
@[simp] theorem State.setDisplay_reg (a : Display) (r : Reg) : (s.setDisplay a).reg r = s.reg r := rfl

/-! ### setRedraw -/

@[simp] theorem State.setRedraw_v (a : Bool) : (s.setRedraw a).v = s.v := rfl
@[simp] theorem State.setRedraw_i (a : Bool) : (s.setRedraw a).i = s.i := rfl
@[simp] theorem State.setRedraw_pc (a : Bool) : (s.setRedraw a).pc = s.pc := rfl
@[simp] theorem State.setRedraw_mem (a : Bool) : (s.setRedraw a).mem = s.mem := rfl
@[simp] theorem State.setRedraw_dt (a : Bool) : (s.setRedraw a).dt = s.dt := rfl
@[simp] theorem State.setRedraw_st (a : Bool) : (s.setRedraw a).st = s.st := rfl
@[simp] theorem State.setRedraw_keys (a : Bool) : (s.setRedraw a).keys = s.keys := rfl
@[simp] theorem State.setRedraw_stack (a : Bool) : (s.setRedraw a).stack = s.stack := rfl
@[simp] theorem State.setRedraw_display (a : Bool) : (s.setRedraw a).display = s.display := rfl
@[simp] theorem State.setRedraw_redraw (a : Bool) : (s.setRedraw a).redraw = a := rfl
@[simp] theorem State.setRedraw_status (a : Bool) : (s.setRedraw a).status = s.status := rfl
@[simp] theorem State.setRedraw_env (a : Bool) : (s.setRedraw a).env = s.env := rfl
@[simp] theorem State.setRedraw_reg (a : Bool) (r : Reg) : (s.setRedraw a).reg r = s.reg r := rfl

/-! ### setStatus -/

@[simp] theorem State.setStatus_v (a : Status) : (s.setStatus a).v = s.v := rfl
@[simp] theorem State.setStatus_i (a : Status) : (s.setStatus a).i = s.i := rfl
@[simp] theorem State.setStatus_pc (a : Status) : (s.setStatus a).pc = s.pc := rfl
@[simp] theorem State.setStatus_mem (a : Status) : (s.setStatus a).mem = s.mem := rfl
@[simp] theorem State.setStatus_dt (a : Status) : (s.setStatus a).dt = s.dt := rfl
@[simp] theorem State.setStatus_st (a : Status) : (s.setStatus a).st = s.st := rfl
@[simp] theorem State.setStatus_keys (a : Status) : (s.setStatus a).keys = s.keys := rfl
@[simp] theorem State.setStatus_stack (a : Status) : (s.setStatus a).stack = s.stack := rfl
@[simp] theorem State.setStatus_display (a : Status) : (s.setStatus a).display = s.display := rfl
@[simp] theorem State.setStatus_redraw (a : Status) : (s.setStatus a).redraw = s.redraw := rfl
@[simp] theorem State.setStatus_status (a : Status) : (s.setStatus a).status = a := rfl
@[simp] theorem State.setStatus_env (a : Status) : (s.setStatus a).env = s.env := rfl
@[simp] theorem State.setStatus_reg (a : Status) (r : Reg) : (s.setStatus a).reg r = s.reg r := rfl

/-! ### setEnv -/

@[simp] theorem State.setEnv_v (a : Env) : (s.setEnv a).v = s.v := rfl
@[simp] theorem State.setEnv_i (a : Env) : (s.setEnv a).i = s.i := rfl
@[simp] theorem State.setEnv_pc (a : Env) : (s.setEnv a).pc = s.pc := rfl
@[simp] theorem State.setEnv_mem (a : Env) : (s.setEnv a).mem = s.mem := rfl
@[simp] theorem State.setEnv_dt (a : Env) : (s.setEnv a).dt = s.dt := rfl
@[simp] theorem State.setEnv_st (a : Env) : (s.setEnv a).st = s.st := rfl
@[simp] theorem State.setEnv_keys (a : Env) : (s.setEnv a).keys = s.keys := rfl
@[simp] theorem State.setEnv_stack (a : Env) : (s.setEnv a).stack = s.stack := rfl
@[simp] theorem State.setEnv_display (a : Env) : (s.setEnv a).display = s.display := rfl
@[simp] theorem State.setEnv_redraw (a : Env) : (s.setEnv a).redraw = s.redraw := rfl
@[simp] theorem State.setEnv_status (a : Env) : (s.setEnv a).status = s.status := rfl
@[simp] theorem State.setEnv_env (a : Env) : (s.setEnv a).env = a := rfl
@[simp] theorem State.setEnv_reg (a : Env) (r : Reg) : (s.setEnv a).reg r = s.reg r := rfl

/-! ### Registers -/

@[simp] theorem State.setReg_reg (x : Reg) (b : Byte) (r : Reg) :
    (s.setReg x b).reg r = if r = x then b else s.reg r := by
  by_cases h : r = x
  · subst h; simp [State.reg]
  · have : x.val ≠ r.val := fun e => h (Fin.ext e.symm)
    simp [State.reg, h, Vector.getElem_set_ne, this]

@[simp] theorem State.setV_reg (a : Vector Byte 16) (r : Reg) : (s.setV a).reg r = a[r] := rfl

theorem State.withRegs_reg (bs : List Byte) (r : Reg) :
    (s.withRegs bs).reg r = bs.getD r.val (s.reg r) := by
  simp [State.withRegs, State.reg]

/-! ### Compound updates as setters -/

@[simp] theorem State.halt_eq (r : HaltReason) : s.halt r = s.setStatus (.halted r) := rfl
@[simp] theorem State.rewind_eq : s.rewind = s.setPc (s.pc - 2) := rfl
@[simp] theorem State.advance_eq : s.advance = s.setPc (s.pc + 2) := rfl
@[simp] theorem State.advanceI_eq (x : Reg) : s.advanceI x = s.setI (BitVec.ofNat 16 (s.i.toNat + x.val + 1)) := rfl

@[simp] theorem State.beginTick_eq (rand : Byte) : s.beginTick rand =
    s.setEnv { s.env with rand := rand, draws := s.env.draws + 1, loadable := false } := rfl

@[simp] theorem State.draw_eq (x y : Reg) (rows : List Byte) : s.draw x y rows =
    ((s.setDisplay (drawSprite s.display (originColumn (s.reg x)) (originRow (s.reg y)) rows).1).setReg vf
      (flagByte (drawSprite s.display (originColumn (s.reg x)) (originRow (s.reg y)) rows).2)).setRedraw true := rfl

theorem State.skip_eq (c : Bool) : s.skip c = s.setPc (if c then s.pc + 2 else s.pc) := by
  cases c <;> rfl

/-! ### The write-back touches registers only -/

@[simp] theorem writeBack_i (x : Reg) (res : Byte) (flag : Bool) : (writeBack x res flag s).i = s.i := by
  unfold writeBack; split <;> rfl
@[simp] theorem writeBack_pc (x : Reg) (res : Byte) (flag : Bool) : (writeBack x res flag s).pc = s.pc := by
  unfold writeBack; split <;> rfl
@[simp] theorem writeBack_mem (x : Reg) (res : Byte) (flag : Bool) : (writeBack x res flag s).mem = s.mem := by
  unfold writeBack; split <;> rfl
@[simp] theorem writeBack_dt (x : Reg) (res : Byte) (flag : Bool) : (writeBack x res flag s).dt = s.dt := by
  unfold writeBack; split <;> rfl
@[simp] theorem writeBack_st (x : Reg) (res : Byte) (flag : Bool) : (writeBack x res flag s).st = s.st := by
  unfold writeBack; split <;> rfl
@[simp] theorem writeBack_keys (x : Reg) (res : Byte) (flag : Bool) : (writeBack x res flag s).keys = s.keys := by
  unfold writeBack; split <;> rfl
@[simp] theorem writeBack_stack (x : Reg) (res : Byte) (flag : Bool) : (writeBack x res flag s).stack = s.stack := by
  unfold writeBack; split <;> rfl
@[simp] theorem writeBack_display (x : Reg) (res : Byte) (flag : Bool) : (writeBack x res flag s).display = s.display := by
  unfold writeBack; split <;> rfl
@[simp] theorem writeBack_redraw (x : Reg) (res : Byte) (flag : Bool) : (writeBack x res flag s).redraw = s.redraw := by
  unfold writeBack; split <;> rfl
@[simp] theorem writeBack_status (x : Reg) (res : Byte) (flag : Bool) : (writeBack x res flag s).status = s.status := by
  unfold writeBack; split <;> rfl
@[simp] theorem writeBack_env (x : Reg) (res : Byte) (flag : Bool) : (writeBack x res flag s).env = s.env := by
  unfold writeBack; split <;> rfl

end Sys2Proof.Machine
end

