-- ==== Sys2Proof/Laws/Ops.lean ====
section
/-! SUPPORT. What each shared operation can do, said once: taking a fault, observation, the call stack, the keypad, fetch, the
write-back, and the blocks Fx55 and Fx65 move. -/

namespace Sys2Proof.Machine

/-- Taking a fault (R127): PC back at the instruction, the reason in the status, nothing else. -/
@[simp] theorem raiseFault_eq (r : HaltReason) (s : State) :
    raiseFault r s = .next { s with pc := s.pc - 2, status := .halted r } := rfl

/-- Undoing the fetch advance is exact: PC is back at the fetch address. -/
@[simp] theorem pc_add_sub (w : Word) : w + 2 - 2 = w := by simp

/-! ### Observation -/

/-- The numeric codes tell the statuses apart (R280). -/
theorem statusCode_inj {a b : Status} : statusCode a = statusCode b ↔ a = b := by
  refine ⟨fun h => ?_, congrArg statusCode⟩
  rcases a with _ | (_ | _ | _ | _ | _) <;> rcases b with _ | (_ | _ | _ | _ | _) <;> first | rfl | cases h

/-- The host reads all state (R294, R299): what it observes leaves nothing of the machine open but the model's `env`. -/
theorem State.eq_of_observe_eq {s t : State} (h : s.observe = t.observe) (he : s.env = t.env) : s = t := by
  cases s
  cases t
  simp_all [State.observe, statusCode_inj]

/-! ### The call stack -/

theorem State.push_of_lt {s : State} {a : Word} (h : s.stack.length < 16) :
    s.push a = some (s.setStack (s.stack ++ [a])) := if_pos h

theorem State.push_of_ge {s : State} {a : Word} (h : 16 ≤ s.stack.length) : s.push a = none :=
  if_neg (by omega)

theorem State.pop_of_concat {s : State} {l : List Word} {a : Word} (h : s.stack = l ++ [a]) :
    s.pop = some (a, s.setStack l) := by
  simp [State.pop, h]

theorem State.pop_of_nil {s : State} (h : s.stack = []) : s.pop = none := by
  simp [State.pop, h]

/-! ### The keypad -/

theorem keyNamed_eq_some {b : Byte} {k : Key} : keyNamed b = some k ↔ b.toNat = k.val := by
  unfold keyNamed
  split
  · simp [Fin.ext_iff]
  · have := k.isLt
    simp only [reduceCtorEq, false_iff]
    omega

theorem keyNamed_eq_none {b : Byte} : keyNamed b = none ↔ 15 < b.toNat := by
  unfold keyNamed
  split
  · simp only [reduceCtorEq, false_iff]
    omega
  · simp only [true_iff]
    omega

theorem firstKeyDown_eq_none {keys : Vector Bool 16} :
    firstKeyDown keys = none ↔ ∀ k : Key, keys[k] = false := by
  simp [firstKeyDown]

/-- The lowest key that is down (R264). -/
theorem firstKeyDown_eq_some {keys : Vector Bool 16} {k : Key} :
    firstKeyDown keys = some k ↔ keys[k] = true ∧ ∀ j : Key, j < k → keys[j] = false := by
  have hsplit : ∀ as bs : List Key, List.finRange 16 = as ++ k :: bs → ∀ j : Key, j ∈ as ↔ j < k := by
    intro as bs h j
    have hp : (as ++ k :: bs).Pairwise (· < ·) := by
      rw [← h]
      exact List.pairwise_lt_finRange 16
    rw [List.pairwise_append] at hp
    constructor
    · intro hj
      exact hp.2.2 j hj k (List.mem_cons_self ..)
    · intro hj
      have hm : j ∈ as ++ k :: bs := h ▸ List.mem_finRange j
      rcases List.mem_append.mp hm with hm | hm
      · exact hm
      · rcases List.mem_cons.mp hm with rfl | hm
        · exact absurd hj (lt_irrefl _)
        · have := (List.pairwise_cons.mp hp.2.1).1 j hm
          exact absurd hj (not_lt_of_gt this)
  unfold firstKeyDown
  rw [List.find?_eq_some_iff_append]
  constructor
  · rintro ⟨hk, as, bs, h, hf⟩
    refine ⟨hk, fun j hj => ?_⟩
    simpa using hf j ((hsplit as bs h j).mpr hj)
  · rintro ⟨hk, hf⟩
    obtain ⟨as, bs, h⟩ := List.append_of_mem (List.mem_finRange k)
    exact ⟨hk, as, bs, h, fun j hj => by simpa using hf j ((hsplit as bs h j).mp hj)⟩

/-! ### Fetch -/

theorem State.fetch_of_le {s : State} (h : s.pc.toNat + 1 ≤ 0xFFF) :
    s.fetch = some [s.mem.read s.pc.toNat, s.mem.read (s.pc.toNat + 1)] :=
  Memory.readBlock_eq_some.mpr ⟨.inr (by omega), rfl⟩

theorem State.fetch_of_gt {s : State} (h : 0xFFF < s.pc.toNat + 1) : s.fetch = none :=
  Memory.readBlock_eq_none.mpr ⟨by omega, by omega⟩

/-! ### The write-back of the flag-writing instructions -/

theorem writeBack_reg_of_ne {x : Reg} (hx : x ≠ vf) (res : Byte) (flag : Bool) (s : State) (r : Reg) :
    (writeBack x res flag s).reg r = if r = vf then flagByte flag else if r = x then res else s.reg r := by
  simp [writeBack, hx]

theorem writeBack_reg_of_vf (res : Byte) (flag : Bool) (s : State) (r : Reg) :
    (writeBack vf res flag s).reg r =
      if r = vf then vfAsDestination s.env.params.vfOrder s.env.draws res flag else s.reg r := by
  simp [writeBack]

/-! ### Register blocks -/

@[simp] theorem State.length_regsUpTo (s : State) (x : Reg) : (s.regsUpTo x).length = x.val + 1 := by
  simp [State.regsUpTo]

theorem State.getElem_regsUpTo (s : State) (x r : Reg) (h : r.val < (s.regsUpTo x).length) :
    (s.regsUpTo x)[r.val] = s.reg r := by
  simp [State.regsUpTo, State.reg]

/-! `withRegs` changes registers only (R235); which, says `State.withRegs_reg`. -/

@[simp] theorem State.withRegs_i (s : State) (bs : List Byte) : (s.withRegs bs).i = s.i := rfl
@[simp] theorem State.withRegs_pc (s : State) (bs : List Byte) : (s.withRegs bs).pc = s.pc := rfl
@[simp] theorem State.withRegs_mem (s : State) (bs : List Byte) : (s.withRegs bs).mem = s.mem := rfl
@[simp] theorem State.withRegs_dt (s : State) (bs : List Byte) : (s.withRegs bs).dt = s.dt := rfl
@[simp] theorem State.withRegs_st (s : State) (bs : List Byte) : (s.withRegs bs).st = s.st := rfl
@[simp] theorem State.withRegs_keys (s : State) (bs : List Byte) : (s.withRegs bs).keys = s.keys := rfl
@[simp] theorem State.withRegs_stack (s : State) (bs : List Byte) : (s.withRegs bs).stack = s.stack := rfl
@[simp] theorem State.withRegs_display (s : State) (bs : List Byte) : (s.withRegs bs).display = s.display := rfl
@[simp] theorem State.withRegs_redraw (s : State) (bs : List Byte) : (s.withRegs bs).redraw = s.redraw := rfl
@[simp] theorem State.withRegs_status (s : State) (bs : List Byte) : (s.withRegs bs).status = s.status := rfl
@[simp] theorem State.withRegs_env (s : State) (bs : List Byte) : (s.withRegs bs).env = s.env := rfl

@[simp] theorem length_bcdDigits (b : Byte) : (bcdDigits b).length = 3 := rfl

end Sys2Proof.Machine
end

