-- ==== Sys2Proof/Laws/Exec.lean ====
section
/-! SUPPORT. The instructions that can fault, each as one if over a condition on the state: where it completes and with
what, and where it takes its fault. The other instructions' meanings are their own equations. -/

namespace Sys2Proof.Machine

theorem execRet_eq (s : State) : execRet s =
    match s.stack.getLast? with
    | some a => .next ((s.setStack s.stack.dropLast).setPc a)
    | none => raiseFault .stackUnderflow s := by
  unfold execRet State.pop
  cases s.stack.getLast? <;> rfl

theorem execCall_eq (nnn : BitVec 12) (s : State) : execCall nnn s =
    if s.stack.length < 16 then .next ((s.setStack (s.stack ++ [s.pc])).setPc (zext16 nnn))
    else raiseFault .stackOverflow s := by
  unfold execCall State.push
  split <;> split at * <;> simp_all

theorem execDrw_eq (x y : Reg) (n : BitVec 4) (s : State) : execDrw x y n s =
    if n.toNat = 0 ∨ s.base + n.toNat ≤ 0x1000 then .next (s.draw x y (s.mem.readBytes s.base n.toNat))
    else raiseFault .memoryOutOfBounds s := by
  unfold execDrw
  by_cases h : n.toNat = 0 ∨ s.base + n.toNat ≤ 0x1000
  · rw [if_pos h, Memory.readBlock_eq_some.mpr ⟨h, rfl⟩]
  · rw [if_neg h, Memory.readBlock_eq_none.mpr ⟨by omega, by omega⟩]

theorem execBcd_eq (x : Reg) (s : State) : execBcd x s =
    if s.base + 3 ≤ 0x1000 then .next (s.setMem (s.mem.writeBytes s.base (bcdDigits (s.reg x))))
    else raiseFault .memoryOutOfBounds s := by
  unfold execBcd
  by_cases h : s.base + 3 ≤ 0x1000
  · rw [if_pos h, Memory.writeBlock_eq_some.mpr ⟨.inr h, rfl⟩]
  · rw [if_neg h, Memory.writeBlock_eq_none.mpr ⟨by simp, by simp; omega⟩]

theorem execStoreRegs_eq (x : Reg) (s : State) : execStoreRegs x s =
    if s.base + (x.val + 1) ≤ 0x1000 then
      .next ((s.setMem (s.mem.writeBytes s.base (s.regsUpTo x))).advanceI x)
    else raiseFault .memoryOutOfBounds s := by
  unfold execStoreRegs
  by_cases h : s.base + (x.val + 1) ≤ 0x1000
  · rw [if_pos h, Memory.writeBlock_eq_some.mpr ⟨.inr (by simpa using h), rfl⟩]
  · rw [if_neg h, Memory.writeBlock_eq_none.mpr ⟨by simp, by simp; omega⟩]

theorem execLoadRegs_eq (x : Reg) (s : State) : execLoadRegs x s =
    if s.base + (x.val + 1) ≤ 0x1000 then
      .next ((s.withRegs (s.mem.readBytes s.base (x.val + 1))).advanceI x)
    else raiseFault .memoryOutOfBounds s := by
  unfold execLoadRegs
  by_cases h : s.base + (x.val + 1) ≤ 0x1000
  · rw [if_pos h, Memory.readBlock_eq_some.mpr ⟨.inr h, rfl⟩]
  · rw [if_neg h, Memory.readBlock_eq_none.mpr ⟨by omega, by omega⟩]

end Sys2Proof.Machine
end

