-- ==== Sys2Proof/Laws/PerInstr.lean ====
section
/-! SUPPORT. A family over every instruction, `Encoding`: the bits that spec/opcode_table.json fixes for a row stand in
the encoded word (spec/30_encoding.md R92, R95). The table below is the spec's, not read off `encode`. -/

namespace Sys2Proof

/-- A row's fixed bits: the word's bits under the mask. -/
structure TableRow where
  mask  : Word
  value : Word
  deriving DecidableEq, Repr

/-- The opcode table's mask and match of each instruction. -/
def tableRow : Instr → TableRow
  | .cls => ⟨0xFFFF, 0x00E0⟩
  | .ret => ⟨0xFFFF, 0x00EE⟩
  | .jp _ => ⟨0xF000, 0x1000⟩
  | .call _ => ⟨0xF000, 0x2000⟩
  | .seByte _ _ => ⟨0xF000, 0x3000⟩
  | .sneByte _ _ => ⟨0xF000, 0x4000⟩
  | .seReg _ _ => ⟨0xF000, 0x5000⟩
  | .ldByte _ _ => ⟨0xF000, 0x6000⟩
  | .addByte _ _ => ⟨0xF000, 0x7000⟩
  | .ldReg _ _ => ⟨0xF00F, 0x8000⟩
  | .or _ _ => ⟨0xF00F, 0x8001⟩
  | .and _ _ => ⟨0xF00F, 0x8002⟩
  | .xor _ _ => ⟨0xF00F, 0x8003⟩
  | .addReg _ _ => ⟨0xF00F, 0x8004⟩
  | .sub _ _ => ⟨0xF00F, 0x8005⟩
  | .shr _ _ => ⟨0xF00F, 0x8006⟩
  | .subn _ _ => ⟨0xF00F, 0x8007⟩
  | .shl _ _ => ⟨0xF00F, 0x800E⟩
  | .sneReg _ _ => ⟨0xF000, 0x9000⟩
  | .ldI _ => ⟨0xF000, 0xA000⟩
  | .jpV0 _ => ⟨0xF000, 0xB000⟩
  | .rnd _ _ => ⟨0xF000, 0xC000⟩
  | .drw _ _ _ => ⟨0xF000, 0xD000⟩
  | .skp _ => ⟨0xF0FF, 0xE09E⟩
  | .sknp _ => ⟨0xF0FF, 0xE0A1⟩
  | .readDelay _ => ⟨0xF0FF, 0xF007⟩
  | .waitKey _ => ⟨0xF0FF, 0xF00A⟩
  | .setDelay _ => ⟨0xF0FF, 0xF015⟩
  | .setSound _ => ⟨0xF0FF, 0xF018⟩
  | .addI _ => ⟨0xF0FF, 0xF01E⟩
  | .glyph _ => ⟨0xF0FF, 0xF029⟩
  | .bcd _ => ⟨0xF0FF, 0xF033⟩
  | .storeRegs _ => ⟨0xF0FF, 0xF055⟩
  | .loadRegs _ => ⟨0xF0FF, 0xF065⟩

/-- Masking a word of shape A to its op (R92). -/
theorem wordA_and_F000 (op : BitVec 4) (nnn : BitVec 12) : wordA op nnn &&& 0xF000 = wordA op 0 := by
  apply BitVec.eq_of_getLsbD_eq
  intro i hi
  have hm : ∀ i < 16, (0xF000 : Word).getLsbD i = decide (12 ≤ i) := by decide
  rw [BitVec.getLsbD_and, hm i hi, getLsbD_wordA, getLsbD_wordA]
  by_cases h : i < 12
  · simp [h, show ¬ 12 ≤ i by omega]
  · simp [h, show 12 ≤ i by omega]

theorem wordXI_and_F000 (op : BitVec 4) (x : Reg) (nn : Byte) : wordXI op x nn &&& 0xF000 = wordXI op 0 0 := by
  apply BitVec.eq_of_getLsbD_eq
  intro i hi
  have hm : ∀ i < 16, (0xF000 : Word).getLsbD i = decide (12 ≤ i) := by decide
  rw [BitVec.getLsbD_and, hm i hi, getLsbD_wordXI, getLsbD_wordXI]
  by_cases h : i < 12
  · by_cases h8 : i < 8
    · simp [h8, show ¬ 12 ≤ i by omega]
    · simp [h, h8, show ¬ 12 ≤ i by omega]
  · simp [h, show ¬ i < 8 by omega, show 12 ≤ i by omega]

theorem wordXI_and_F0FF (op : BitVec 4) (x : Reg) (nn : Byte) : wordXI op x nn &&& 0xF0FF = wordXI op 0 nn := by
  apply BitVec.eq_of_getLsbD_eq
  intro i hi
  have hm : ∀ i < 16, (0xF0FF : Word).getLsbD i = decide (12 ≤ i ∨ i < 8) := by decide
  rw [BitVec.getLsbD_and, hm i hi, getLsbD_wordXI, getLsbD_wordXI]
  by_cases h : i < 12
  · by_cases h8 : i < 8
    · simp [h8]
    · simp [h, h8, show ¬ 12 ≤ i by omega]
  · simp [h, show ¬ i < 8 by omega, show 12 ≤ i by omega]

theorem wordXY_and_F000 (op : BitVec 4) (x y : Reg) (n : BitVec 4) : wordXY op x y n &&& 0xF000 = wordXY op 0 0 0 := by
  apply BitVec.eq_of_getLsbD_eq
  intro i hi
  have hm : ∀ i < 16, (0xF000 : Word).getLsbD i = decide (12 ≤ i) := by decide
  rw [BitVec.getLsbD_and, hm i hi, getLsbD_wordXY, getLsbD_wordXY]
  by_cases h : i < 12
  · by_cases h4 : i < 4
    · simp [h4, show ¬ 12 ≤ i by omega]
    · by_cases h8 : i < 8
      · simp [h4, h8, show ¬ 12 ≤ i by omega]
      · simp [h, h4, h8, show ¬ 12 ≤ i by omega]
  · simp [h, show ¬ i < 4 by omega, show ¬ i < 8 by omega, show 12 ≤ i by omega]

theorem wordXY_and_F00F (op : BitVec 4) (x y : Reg) (n : BitVec 4) : wordXY op x y n &&& 0xF00F = wordXY op 0 0 n := by
  apply BitVec.eq_of_getLsbD_eq
  intro i hi
  have hm : ∀ i < 16, (0xF00F : Word).getLsbD i = decide (12 ≤ i ∨ i < 4) := by decide
  rw [BitVec.getLsbD_and, hm i hi, getLsbD_wordXY, getLsbD_wordXY]
  by_cases h : i < 12
  · by_cases h4 : i < 4
    · simp [h4]
    · by_cases h8 : i < 8
      · simp [h4, h8, show ¬ 12 ≤ i by omega]
      · simp [h, h4, h8, show ¬ 12 ≤ i by omega]
  · simp [h, show ¬ i < 4 by omega, show ¬ i < 8 by omega, show 12 ≤ i by omega]

/-- The encoded word carries its row's fixed bits. -/
def Laws.Encoding.Statement (i : Instr) : Prop := encode i &&& (tableRow i).mask = (tableRow i).value

theorem Laws.Encoding.cls : Laws.Encoding.Statement .cls := rfl
theorem Laws.Encoding.ret : Laws.Encoding.Statement .ret := rfl
theorem Laws.Encoding.jp (nnn : BitVec 12) : Laws.Encoding.Statement (.jp nnn) := (wordA_and_F000 _ _).trans rfl
theorem Laws.Encoding.call (nnn : BitVec 12) : Laws.Encoding.Statement (.call nnn) := (wordA_and_F000 _ _).trans rfl
theorem Laws.Encoding.seByte (x : Reg) (nn : Byte) : Laws.Encoding.Statement (.seByte x nn) := (wordXI_and_F000 _ _ _).trans rfl
theorem Laws.Encoding.sneByte (x : Reg) (nn : Byte) : Laws.Encoding.Statement (.sneByte x nn) := (wordXI_and_F000 _ _ _).trans rfl
theorem Laws.Encoding.seReg (x : Reg) (y : Reg) : Laws.Encoding.Statement (.seReg x y) := (wordXY_and_F000 _ _ _ _).trans rfl
theorem Laws.Encoding.ldByte (x : Reg) (nn : Byte) : Laws.Encoding.Statement (.ldByte x nn) := (wordXI_and_F000 _ _ _).trans rfl
theorem Laws.Encoding.addByte (x : Reg) (nn : Byte) : Laws.Encoding.Statement (.addByte x nn) := (wordXI_and_F000 _ _ _).trans rfl
theorem Laws.Encoding.ldReg (x : Reg) (y : Reg) : Laws.Encoding.Statement (.ldReg x y) := (wordXY_and_F00F _ _ _ _).trans rfl
theorem Laws.Encoding.or (x : Reg) (y : Reg) : Laws.Encoding.Statement (.or x y) := (wordXY_and_F00F _ _ _ _).trans rfl
theorem Laws.Encoding.and (x : Reg) (y : Reg) : Laws.Encoding.Statement (.and x y) := (wordXY_and_F00F _ _ _ _).trans rfl
theorem Laws.Encoding.xor (x : Reg) (y : Reg) : Laws.Encoding.Statement (.xor x y) := (wordXY_and_F00F _ _ _ _).trans rfl
theorem Laws.Encoding.addReg (x : Reg) (y : Reg) : Laws.Encoding.Statement (.addReg x y) := (wordXY_and_F00F _ _ _ _).trans rfl
theorem Laws.Encoding.sub (x : Reg) (y : Reg) : Laws.Encoding.Statement (.sub x y) := (wordXY_and_F00F _ _ _ _).trans rfl
theorem Laws.Encoding.shr (x : Reg) (y : Reg) : Laws.Encoding.Statement (.shr x y) := (wordXY_and_F00F _ _ _ _).trans rfl
theorem Laws.Encoding.subn (x : Reg) (y : Reg) : Laws.Encoding.Statement (.subn x y) := (wordXY_and_F00F _ _ _ _).trans rfl
theorem Laws.Encoding.shl (x : Reg) (y : Reg) : Laws.Encoding.Statement (.shl x y) := (wordXY_and_F00F _ _ _ _).trans rfl
theorem Laws.Encoding.sneReg (x : Reg) (y : Reg) : Laws.Encoding.Statement (.sneReg x y) := (wordXY_and_F000 _ _ _ _).trans rfl
theorem Laws.Encoding.ldI (nnn : BitVec 12) : Laws.Encoding.Statement (.ldI nnn) := (wordA_and_F000 _ _).trans rfl
theorem Laws.Encoding.jpV0 (nnn : BitVec 12) : Laws.Encoding.Statement (.jpV0 nnn) := (wordA_and_F000 _ _).trans rfl
theorem Laws.Encoding.rnd (x : Reg) (nn : Byte) : Laws.Encoding.Statement (.rnd x nn) := (wordXI_and_F000 _ _ _).trans rfl
theorem Laws.Encoding.drw (x : Reg) (y : Reg) (n : BitVec 4) : Laws.Encoding.Statement (.drw x y n) := (wordXY_and_F000 _ _ _ _).trans rfl
theorem Laws.Encoding.skp (x : Reg) : Laws.Encoding.Statement (.skp x) := (wordXI_and_F0FF _ _ _).trans rfl
theorem Laws.Encoding.sknp (x : Reg) : Laws.Encoding.Statement (.sknp x) := (wordXI_and_F0FF _ _ _).trans rfl
theorem Laws.Encoding.readDelay (x : Reg) : Laws.Encoding.Statement (.readDelay x) := (wordXI_and_F0FF _ _ _).trans rfl
theorem Laws.Encoding.waitKey (x : Reg) : Laws.Encoding.Statement (.waitKey x) := (wordXI_and_F0FF _ _ _).trans rfl
theorem Laws.Encoding.setDelay (x : Reg) : Laws.Encoding.Statement (.setDelay x) := (wordXI_and_F0FF _ _ _).trans rfl
theorem Laws.Encoding.setSound (x : Reg) : Laws.Encoding.Statement (.setSound x) := (wordXI_and_F0FF _ _ _).trans rfl
theorem Laws.Encoding.addI (x : Reg) : Laws.Encoding.Statement (.addI x) := (wordXI_and_F0FF _ _ _).trans rfl
theorem Laws.Encoding.glyph (x : Reg) : Laws.Encoding.Statement (.glyph x) := (wordXI_and_F0FF _ _ _).trans rfl
theorem Laws.Encoding.bcd (x : Reg) : Laws.Encoding.Statement (.bcd x) := (wordXI_and_F0FF _ _ _).trans rfl
theorem Laws.Encoding.storeRegs (x : Reg) : Laws.Encoding.Statement (.storeRegs x) := (wordXI_and_F0FF _ _ _).trans rfl
theorem Laws.Encoding.loadRegs (x : Reg) : Laws.Encoding.Statement (.loadRegs x) := (wordXI_and_F0FF _ _ _).trans rfl

end Sys2Proof
end

