-- ==== Sys2Proof/Laws/Screen.lean ====
section
/-! SUPPORT. The sprite draw, pixel by pixel: the loop of R143 toggles exactly the pixels a 1 bit lands on, and reports a
collision exactly when one of them was on. -/

namespace Sys2Proof

/-- The sprite bit that lands on column `c`, row `r` when `rows` is drawn at (`ox`, `oy`) (R141, R142). -/
def landingBit (ox oy : Nat) (rows : List Byte) (c r : Nat) : Bool :=
  decide (ox ≤ c ∧ c < ox + 8 ∧ oy ≤ r) && ((rows[r - oy]?).getD 0).getLsbD (7 - (c - ox))

theorem Display.pixel_toggle (d : Display) (c r c' r' : Nat) :
    (d.toggle c r).pixel c' r' = (d.pixel c' r' ^^ decide (c' = c ∧ r' = r ∧ c < 64 ∧ r < 32)) := by
  unfold Display.toggle
  split
  · rename_i h
    unfold Display.pixel
    split
    · rename_i h'
      by_cases hc : c' = c
      · subst hc
        by_cases hr : r' = r
        · subst hr
          simp [h']
        · simp [hr, Vector.getElem_set_ne _ _ (Ne.symm hr)]
      · simp [hc, Vector.getElem_set_ne _ _ (Ne.symm hc)]
    · rename_i h'
      have : ¬ (c' = c ∧ r' = r ∧ c < 64 ∧ r < 32) := by omega
      simp [this]
  · rename_i h
    have : ¬ (c' = c ∧ r' = r ∧ c < 64 ∧ r < 32) := by omega
    simp [this]

@[simp] theorem Display.pixel_blank (c r : Nat) : Display.blank.pixel c r = false := by
  simp [Display.pixel, Display.blank]

/-- Two displays with the same pixels are the same. -/
theorem Display.ext_pixel {d d' : Display} (h : ∀ c r, c < 64 → r < 32 → d.pixel c r = d'.pixel c r) : d = d' := by
  apply Vector.ext
  intro c hc
  apply Vector.ext
  intro r hr
  simpa [Display.pixel, hc, hr] using h c r hc hr

theorem drawPixel_pixel (c r : Nat) (bit : Bool) (acc : Display × Bool) (c' r' : Nat) (hc : c' < 64) (hr : r' < 32) :
    (drawPixel c r bit acc).1.pixel c' r' = (acc.1.pixel c' r' ^^ (bit && decide (c' = c ∧ r' = r))) := by
  unfold drawPixel
  split
  · rename_i h
    simp [Display.pixel_toggle, h]
  · rename_i h
    by_cases hb : bit = true
    · have : ¬ (c' = c ∧ r' = r) := fun e => h ⟨hb, by omega, by omega⟩
      simp [this]
    · simp [hb]

theorem drawPixel_hit (c r : Nat) (bit : Bool) (acc : Display × Bool) :
    (drawPixel c r bit acc).2 = true ↔ acc.2 = true ∨ (bit = true ∧ c < 64 ∧ r < 32 ∧ acc.1.pixel c r = true) := by
  unfold drawPixel
  split
  · rename_i h
    simp [h]
  · rename_i h
    constructor
    · exact .inl
    · rintro (h' | ⟨h1, h2, h3, -⟩)
      · exact h'
      · exact absurd ⟨h1, h2, h3⟩ h

/-- The pixels of one byte: the last `k` of them are drawn. -/
theorem drawByteFrom_pixel (ox r : Nat) (b : Byte) (k : Nat) (hk : k ≤ 8) (acc : Display × Bool) (c' r' : Nat)
    (hc : c' < 64) (hr : r' < 32) :
    (drawByteFrom ox r b k acc).1.pixel c' r' =
      (acc.1.pixel c' r' ^^ (decide (r' = r ∧ ox + (8 - k) ≤ c' ∧ c' < ox + 8) && b.getLsbD (7 - (c' - ox)))) := by
  induction k generalizing acc with
  | zero =>
    have : ¬ (r' = r ∧ ox + (8 - 0) ≤ c' ∧ c' < ox + 8) := by omega
    simp [drawByteFrom, this]
  | succ k ih =>
    rw [drawByteFrom, ih (by omega), drawPixel_pixel _ _ _ _ _ _ hc hr]
    by_cases h : c' = ox + (7 - k) ∧ r' = r
    · have h1 : ¬ (r' = r ∧ ox + (8 - k) ≤ c' ∧ c' < ox + 8) := by omega
      have h2 : r' = r ∧ ox + (8 - (k + 1)) ≤ c' ∧ c' < ox + 8 := by omega
      have h3 : 7 - (c' - ox) = k := by omega
      rw [decide_eq_true h, decide_eq_false h1, decide_eq_true h2, h3]
      simp
    · have h1 : decide (r' = r ∧ ox + (8 - (k + 1)) ≤ c' ∧ c' < ox + 8) =
          decide (r' = r ∧ ox + (8 - k) ≤ c' ∧ c' < ox + 8) := decide_eq_decide.mpr (by omega)
      rw [decide_eq_false h, h1, Bool.and_false, Bool.xor_false]

theorem drawByteFrom_hit (ox r : Nat) (b : Byte) (k : Nat) (hk : k ≤ 8) (acc : Display × Bool) :
    (drawByteFrom ox r b k acc).2 = true ↔ acc.2 = true ∨
      ∃ c', c' < 64 ∧ r < 32 ∧ ox + (8 - k) ≤ c' ∧ c' < ox + 8 ∧ b.getLsbD (7 - (c' - ox)) = true ∧
        acc.1.pixel c' r = true := by
  induction k generalizing acc with
  | zero =>
    simp only [drawByteFrom]
    constructor
    · exact .inl
    · rintro (h | ⟨c', h⟩)
      · exact h
      · omega
  | succ k ih =>
    rw [drawByteFrom, ih (by omega), drawPixel_hit]
    constructor
    · rintro ((h | ⟨hb, hc, hr, hp⟩) | ⟨c', hc, hr, h1, h2, hb, hp⟩)
      · exact .inl h
      · exact .inr ⟨ox + (7 - k), hc, hr, by omega, by omega, by rwa [show 7 - (ox + (7 - k) - ox) = k by omega], hp⟩
      · rw [drawPixel_pixel _ _ _ _ _ _ hc hr] at hp
        have hne : ¬ (c' = ox + (7 - k) ∧ r = r) := by omega
        rw [decide_eq_false hne, Bool.and_false, Bool.xor_false] at hp
        exact .inr ⟨c', hc, hr, by omega, h2, hb, hp⟩
    · rintro (h | ⟨c', hc, hr, h1, h2, hb, hp⟩)
      · exact .inl (.inl h)
      · by_cases hk' : c' = ox + (7 - k)
        · subst hk'
          rw [show 7 - (ox + (7 - k) - ox) = k by omega] at hb
          exact .inl (.inr ⟨hb, hc, hr, hp⟩)
        · refine .inr ⟨c', hc, hr, by omega, h2, hb, ?_⟩
          rw [drawPixel_pixel _ _ _ _ _ _ hc hr]
          have hne : ¬ (c' = ox + (7 - k) ∧ r = r) := by omega
          rwa [decide_eq_false hne, Bool.and_false, Bool.xor_false]

theorem landingBit_cons (ox oy : Nat) (b : Byte) (bs : List Byte) (c r : Nat) :
    landingBit ox oy (b :: bs) c r =
      if r = oy then (decide (ox ≤ c ∧ c < ox + 8) && b.getLsbD (7 - (c - ox))) else landingBit ox (oy + 1) bs c r := by
  unfold landingBit
  split
  · subst r
    simp
  · rename_i h
    by_cases hr : oy ≤ r
    · have h1 : r - oy = (r - (oy + 1)) + 1 := by omega
      have h2 : oy + 1 ≤ r := by omega
      rw [h1]
      simp [hr, h2]
    · have h2 : ¬ oy + 1 ≤ r := by omega
      simp [hr, h2]

theorem landingBit_above (ox oy : Nat) (bs : List Byte) (c r : Nat) (h : r < oy) : landingBit ox oy bs c r = false := by
  have : ¬ oy ≤ r := by omega
  simp [landingBit, this]

theorem drawRows_pixel (ox oy : Nat) (rows : List Byte) (acc : Display × Bool) (c r : Nat) (hc : c < 64) (hr : r < 32) :
    (drawRows ox oy rows acc).1.pixel c r = (acc.1.pixel c r ^^ landingBit ox oy rows c r) := by
  induction rows generalizing oy acc with
  | nil => simp [drawRows, landingBit]
  | cons b bs ih =>
    rw [drawRows, ih, drawByteFrom_pixel ox oy b 8 (by omega) acc c r hc hr, landingBit_cons]
    split
    · subst r
      rw [landingBit_above _ _ _ _ _ (by omega)]
      simp
    · rename_i h
      simp [h]

theorem drawRows_hit (ox oy : Nat) (rows : List Byte) (acc : Display × Bool) :
    (drawRows ox oy rows acc).2 = true ↔ acc.2 = true ∨
      ∃ c r, c < 64 ∧ r < 32 ∧ landingBit ox oy rows c r = true ∧ acc.1.pixel c r = true := by
  induction rows generalizing oy acc with
  | nil => simp [drawRows, landingBit]
  | cons b bs ih =>
    rw [drawRows, ih, drawByteFrom_hit ox oy b 8 (by omega)]
    constructor
    · rintro ((h | ⟨c, hc, hr, h1, h2, hb, hp⟩) | ⟨c, r, hc, hr, hb, hp⟩)
      · exact .inl h
      · refine .inr ⟨c, oy, hc, hr, ?_, hp⟩
        rw [landingBit_cons, if_pos rfl]
        have : ox ≤ c ∧ c < ox + 8 := by omega
        simp [this, hb]
      · have hne : r ≠ oy := by
          rintro rfl
          rw [landingBit_above _ _ _ _ _ (by omega)] at hb
          cases hb
        refine .inr ⟨c, r, hc, hr, ?_, ?_⟩
        · rw [landingBit_cons, if_neg hne, hb]
        · rw [drawByteFrom_pixel ox oy b 8 (by omega) acc c r hc hr] at hp
          simpa [hne] using hp
    · rintro (h | ⟨c, r, hc, hr, hb, hp⟩)
      · exact .inl (.inl h)
      · rw [landingBit_cons] at hb
        split at hb
        · subst r
          simp only [Bool.and_eq_true, decide_eq_true_eq] at hb
          exact .inl (.inr ⟨c, hc, hr, by omega, hb.1.2, hb.2, hp⟩)
        · rename_i hne
          refine .inr ⟨c, r, hc, hr, hb, ?_⟩
          rw [drawByteFrom_pixel ox oy b 8 (by omega) acc c r hc hr]
          simp [hne, hp]

/-- Every pixel after a draw: the one before, toggled where a 1 bit lands (R143). -/
theorem drawSprite_pixel (d : Display) (ox oy : Nat) (rows : List Byte) (c r : Nat) (hc : c < 64) (hr : r < 32) :
    (drawSprite d ox oy rows).1.pixel c r = (d.pixel c r ^^ landingBit ox oy rows c r) :=
  drawRows_pixel ox oy rows (d, false) c r hc hr

/-- The collision: some 1 bit lands on a pixel that was on (R144). -/
theorem drawSprite_hit (d : Display) (ox oy : Nat) (rows : List Byte) :
    (drawSprite d ox oy rows).2 = true ↔
      ∃ c r, c < 64 ∧ r < 32 ∧ landingBit ox oy rows c r = true ∧ d.pixel c r = true := by
  simpa [drawSprite] using drawRows_hit ox oy rows (d, false)

end Sys2Proof
end

