-- ==== Sys2Proof/Laws/Tick.lean ====
section
/-! SUPPORT. The engine's cycle, one lemma per way it can go (R120, R128). -/

namespace Sys2Proof.Machine

/-- The two bytes at PC are an instruction: it is executed with PC past them. -/
theorem cycle_of_decode {s : State} {i : Instr} (hpc : s.pc.toNat + 1 ≤ 0xFFF)
    (hd : decodeWord (wordOfBytes (s.mem.read s.pc.toNat) (s.mem.read (s.pc.toNat + 1))) = .ok i) :
    cycle s = exec i s.advance := by
  simp only [cycle, State.fetch_of_le hpc, runFetched, decode, hd]

/-- The two bytes at PC are no instruction: Halted, PC at them. -/
theorem cycle_of_unknown {s : State} {e : DecodeError} (hpc : s.pc.toNat + 1 ≤ 0xFFF)
    (hd : decodeWord (wordOfBytes (s.mem.read s.pc.toNat) (s.mem.read (s.pc.toNat + 1))) = .error e) :
    cycle s = .next (s.halt .unknownOpcode) := by
  simp only [cycle, State.fetch_of_le hpc, runFetched, decode, hd]
  simp [State.setPc, State.setStatus]

/-- PC names no two bytes: Halted, PC kept. -/
theorem cycle_of_gt {s : State} (hpc : 0xFFF < s.pc.toNat + 1) : cycle s = .next (s.halt .memoryOutOfBounds) := by
  simp only [cycle, State.fetch_of_gt hpc]

theorem tick_of_running {s : State} (h : s.status = .running) (rand : Byte) : tick rand s = cycle (s.beginTick rand) := by
  simp only [tick, h]

theorem tick_of_halted {s : State} {r : HaltReason} (h : s.status = .halted r) (rand : Byte) :
    tick rand s = .next s := by
  simp only [tick, h]

/-- A Tick in Running whose two bytes at PC are an instruction. -/
theorem tick_of_decode {s : State} {i : Instr} (rand : Byte) (hs : s.status = .running) (hpc : s.pc.toNat + 1 ≤ 0xFFF)
    (hd : decodeWord (wordOfBytes (s.mem.read s.pc.toNat) (s.mem.read (s.pc.toNat + 1))) = .ok i) :
    tick rand s = exec i (s.beginTick rand).advance :=
  (tick_of_running hs rand).trans (cycle_of_decode (s := s.beginTick rand) hpc hd)

/-- A Tick in Running whose two bytes at PC are no instruction. -/
theorem tick_of_unknown {s : State} {e : DecodeError} (rand : Byte) (hs : s.status = .running)
    (hpc : s.pc.toNat + 1 ≤ 0xFFF)
    (hd : decodeWord (wordOfBytes (s.mem.read s.pc.toNat) (s.mem.read (s.pc.toNat + 1))) = .error e) :
    tick rand s = .next ((s.beginTick rand).halt .unknownOpcode) :=
  (tick_of_running hs rand).trans (cycle_of_unknown (s := s.beginTick rand) hpc hd)

/-- A Tick in Running with a PC that names no two bytes. -/
theorem tick_of_gt {s : State} (rand : Byte) (hs : s.status = .running) (hpc : 0xFFF < s.pc.toNat + 1) :
    tick rand s = .next ((s.beginTick rand).halt .memoryOutOfBounds) :=
  (tick_of_running hs rand).trans (cycle_of_gt (s := s.beginTick rand) hpc)

theorem State.dropEvent_of_nil {s : State} (h : s.env.schedule = []) : s.dropEvent = s := by
  cases s with
  | mk v i pc mem dt st keys stack display redraw status env =>
    cases env
    simp_all [State.dropEvent, State.setEnv]

/-- With no event scheduled a step is a Tick with a free random byte. -/
theorem step_of_nil {s : State} (h : s.env.schedule = []) : step s = tick (Config.randomByte s.env.draws) s := by
  simp only [step, runNext, State.dropEvent_of_nil h, State.nextEvent, h, applyEvent]

end Sys2Proof.Machine
end

