-- ==== Sys2Proof/Tests/Slice0.lean ====
section
/-! SUPPORT. The model's own tests. Expected values come from spec/95_test_vectors.md (its labels stand in the names:
L1.n, FDn, DSn, CFn, ALn, MMn, KTn, RSn) and from the encodings of spec/30_encoding.md, never from the model. After them,
the witnesses that the hypotheses of the statements can be met. -/

open Sys2Proof Sys2Proof.Machine

namespace Sys2Proof.Tests

/-- The reset state, changed by `prep`, about to take a Tick with the random byte `rand` that fetches the word `w`. -/
def ready (w : Nat) (prep : State → State := id) (rand : Byte := 0) : State :=
  let s := (prep State.reset).withFetchWord 16 w
  s.setEnv { s.env with schedule := [.tick rand] }

/-- What one sees of the next state; none where there is none. -/
def seen {α : Type} (r : Result) (f : State → α) : Option α :=
  match r with
  | .next t => some (f t)
  | .fault _ => none
  | .refused _ => none

/-- What one sees after the word `w` has run. -/
def after {α : Type} (w : Nat) (prep : State → State) (f : State → α) : Option α := seen (step (ready w prep)) f

/-- The reset state with the parameters changed. -/
def withOrder (o : VfOrder) (s : State) : State := s.setEnv { s.env with params := { s.env.params with vfOrder := o } }
def withMode (m : BnnnMode) (s : State) : State := s.setEnv { s.env with params := { s.env.params with bnnnMode := m } }

/-- A stack of `n` entries 0x202. -/
def stackOf (n : Nat) : List Word := List.replicate n 0x202

/-- One key down. -/
def keyDown (k : Key) (s : State) : State := s.setKey k true

/-- One pixel on. -/
def pixelOn (c r : Nat) (s : State) : State := s.setDisplay (s.display.toggle c r)

/-! ### Decoding: every constructor, its word written out bit by bit (R92, R95) -/

theorem test_decode_category_0 :
    decodeWord 0b0000000011100000 = .ok .cls ∧ decodeWord 0b0000000011101110 = .ok .ret := by decide

theorem test_decode_addresses :
    decodeWord 0b0001101010111100 = .ok (.jp 0xABC) ∧ decodeWord 0b0010101010111100 = .ok (.call 0xABC) ∧
    decodeWord 0b1010101010111100 = .ok (.ldI 0xABC) ∧ decodeWord 0b1011101010111100 = .ok (.jpV0 0xABC) := by decide

theorem test_decode_bytes :
    decodeWord 0b0011010111000011 = .ok (.seByte 5 0xC3) ∧ decodeWord 0b0100010111000011 = .ok (.sneByte 5 0xC3) ∧
    decodeWord 0b0110010111000011 = .ok (.ldByte 5 0xC3) ∧ decodeWord 0b0111010111000011 = .ok (.addByte 5 0xC3) ∧
    decodeWord 0b1100010111000011 = .ok (.rnd 5 0xC3) := by decide

theorem test_decode_compare_registers :
    decodeWord 0b0101000100100000 = .ok (.seReg 1 2) ∧ decodeWord 0b1001000100100000 = .ok (.sneReg 1 2) := by decide

theorem test_decode_category_8 :
    decodeWord 0b1000000100100000 = .ok (.ldReg 1 2) ∧ decodeWord 0b1000000100100001 = .ok (.or 1 2) ∧
    decodeWord 0b1000000100100010 = .ok (.and 1 2) ∧ decodeWord 0b1000000100100011 = .ok (.xor 1 2) ∧
    decodeWord 0b1000000100100100 = .ok (.addReg 1 2) ∧ decodeWord 0b1000000100100101 = .ok (.sub 1 2) ∧
    decodeWord 0b1000000100100110 = .ok (.shr 1 2) ∧ decodeWord 0b1000000100100111 = .ok (.subn 1 2) ∧
    decodeWord 0b1000000100101110 = .ok (.shl 1 2) := by decide

theorem test_decode_draw : decodeWord 0b1101000100100101 = .ok (.drw 1 2 5) := by decide

theorem test_decode_category_E :
    decodeWord 0b1110010010011110 = .ok (.skp 4) ∧ decodeWord 0b1110010010100001 = .ok (.sknp 4) := by decide

theorem test_decode_category_F :
    decodeWord 0b1111001100000111 = .ok (.readDelay 3) ∧ decodeWord 0b1111001100001010 = .ok (.waitKey 3) ∧
    decodeWord 0b1111001100010101 = .ok (.setDelay 3) ∧ decodeWord 0b1111001100011000 = .ok (.setSound 3) ∧
    decodeWord 0b1111001100011110 = .ok (.addI 3) ∧ decodeWord 0b1111001100101001 = .ok (.glyph 3) ∧
    decodeWord 0b1111001100110011 = .ok (.bcd 3) ∧ decodeWord 0b1111001101010101 = .ok (.storeRegs 3) ∧
    decodeWord 0b1111001101100101 = .ok (.loadRegs 3) := by decide

theorem test_decode_FD1_big_endian : decode [0x8A, 0xB4] = .ok (.addReg 0xA 0xB, []) := by decide

theorem test_decode_truncated : decode [0x8A] = .error .truncated ∧ decode [] = .error .truncated := by decide

theorem test_decode_FD6_FD9_unknown :
    decodeWord 0x0123 = .error (.unknownOpcode 0x0123) ∧ decodeWord 0x8008 = .error (.unknownOpcode 0x8008) ∧
    decodeWord 0x800D = .error (.unknownOpcode 0x800D) ∧ decodeWord 0x800F = .error (.unknownOpcode 0x800F) ∧
    decodeWord 0xE000 = .error (.unknownOpcode 0xE000) ∧ decodeWord 0xE19F = .error (.unknownOpcode 0xE19F) ∧
    decodeWord 0xE1A0 = .error (.unknownOpcode 0xE1A0) ∧ decodeWord 0xF000 = .error (.unknownOpcode 0xF000) ∧
    decodeWord 0xF0FF = .error (.unknownOpcode 0xF0FF) ∧ decodeWord 0xF01F = .error (.unknownOpcode 0xF01F) := by decide

/-- R101's image of the source's scenario. -/
theorem test_encode_scenario :
    [Instr.cls, .ldByte 0 5, .addByte 0 3, .jp 0x200].flatMap encodeBytes =
      [0x00, 0xE0, 0x60, 0x05, 0x70, 0x03, 0x12, 0x00] := by decide

/-! ### Well-formedness: what each check refuses -/

theorem test_wf_category_0 : Word.known 0x00E0 = true ∧ Word.known 0x00E1 = false ∧ Word.known 0x0200 = false := by decide
theorem test_wf_category_8 : Word.known 0x812E = true ∧ Word.known 0x8128 = false ∧ Word.known 0x812F = false := by decide
theorem test_wf_category_E : Word.known 0xE49E = true ∧ Word.known 0xE49F = false := by decide
theorem test_wf_category_F : Word.known 0xF365 = true ∧ Word.known 0xF375 = false := by decide
theorem test_wf_other_categories : Word.known 0x512F = true ∧ Word.known 0xDFFF = true := by decide
theorem test_wf_image_fits : Image.fits 3584 = true ∧ Image.wellFormed [] 3585 = false := by decide
theorem test_wf_image_complete :
    Image.wellFormed [1, 2, 3] 3 = true ∧ Image.complete [1, 2, 3] 4 = false ∧ Image.wellFormed [1, 2, 3] 4 = false := by
  decide
theorem test_wf_memory_order : Memory.wf [(0x300, 1), (0x301, 1)] = true ∧ Memory.wf [(0x301, 1), (0x300, 1)] = false ∧
    Memory.wf [(0x300, 1), (0x300, 1)] = false := by decide
theorem test_wf_memory_unlisted_value : Memory.wf [(0x300, 0)] = false ∧ Memory.wf [(0x050, 0xF0)] = false ∧
    Memory.wf [(0x1000, 1)] = false := by decide

/-! ### Memory -/

/-- MM23 and the canonical form: the font copy is writable, and writing the old value back leaves nothing listed. -/
theorem test_MM23_font_is_writable :
    Memory.read (Memory.write [] 0x050 0x12) 0x050 = 0x12 ∧ Memory.write (Memory.write [] 0x050 0x12) 0x050 0xF0 = [] := by
  decide

/-- DS13's glyph 0. -/
theorem test_DS13_font : Memory.readBytes [] 0x050 5 = [0xF0, 0x90, 0x90, 0x90, 0xF0] := by decide

/-! ### Fetch and faults -/

theorem test_FD2_last_fetchable_word : after 0x1200 (fun s => s.setPc 0xFFE) (fun t => (t.pc, t.status)) =
    some (0x200, .running) := by decide
theorem test_FD3_fetch_at_FFF : after 0x1200 (fun s => s.setPc 0xFFF) (fun t => (t.pc, t.status)) =
    some (0xFFF, .halted .memoryOutOfBounds) := by decide
theorem test_FD4_fetch_at_1000 : after 0x1200 (fun s => s.setPc 0x1000) (fun t => (t.pc, t.status)) =
    some (0x1000, .halted .memoryOutOfBounds) := by decide
theorem test_FD5_unknown_word : after 0x0000 id (fun t => (t.pc, t.status)) =
    some (0x200, .halted .unknownOpcode) := by decide
theorem test_FD12_halted_tick :
    seen (tick 0 (State.reset.halt .unknownOpcode)) (fun t => decide (t = State.reset.halt .unknownOpcode)) = some true := by
  decide
theorem test_FD13_odd_pc : after 0x6007 (fun s => s.setPc 0x201) (fun t => (t.reg 0, t.pc)) = some (0x07, 0x203) := by
  decide
theorem test_decodeTableWord :
    decodeTableWord 16 0x8124 = some (.addReg 1 2) ∧ decodeTableWord 16 0x0000 = none := by decide

/-! ### Display -/

theorem test_DS1_clear : after 0x00E0 (fun s => (pixelOn 63 31 s).setReg vf 7)
    (fun t => (t.display.pixel 63 31, t.redraw, t.reg vf, t.pc)) = some (false, true, 7, 0x202) := by decide
theorem test_DS3_DS4_clipping :
    after 0xD012 (fun s => ((s.setMem [(0x300, 0xFF), (0x301, 0xFF)]).setI 0x300).setReg 0 60 |>.setReg 1 31)
      (fun t => ([(60, 31), (63, 31), (0, 31), (60, 0)].map fun p => t.display.pixel p.1 p.2, t.reg vf)) =
      some ([true, true, false, false], 0) := by decide
theorem test_DS11_origin_from_old_VF :
    after 0xDF11 (fun s => (pixelOn 5 2 ((s.setMem [(0x300, 0x80)]).setI 0x300)).setReg vf 5 |>.setReg 1 2)
      (fun t => (t.display.pixel 5 2, t.reg vf, t.redraw)) = some (false, 1, true) := by decide
theorem test_DS9_draw_outside_memory : after 0xD012 (fun s => (s.setI 0xFFF).setReg 1 31)
    (fun t => (t.status, t.pc, t.redraw)) = some (.halted .memoryOutOfBounds, 0x200, false) := by decide
theorem test_DS8_no_rows : after 0xD010 (fun s => (s.setI 0xFFFF).setReg vf 1)
    (fun t => (t.status, t.reg vf, t.redraw)) = some (.running, 0, true) := by decide

/-! ### Control flow -/

theorem test_CF7_return : after 0x00EE (fun s => s.setStack [0x202, 0x40A]) (fun t => (t.pc, t.stack)) =
    some (0x40A, [0x202]) := by decide
theorem test_CF8_return_empty : after 0x00EE id (fun t => (t.pc, t.status)) =
    some (0x200, .halted .stackUnderflow) := by decide
theorem test_CF1_jump : after 0x1ABC id State.pc = some 0xABC := by decide
theorem test_CF3_jump_odd : after 0x1201 id State.pc = some 0x201 := by decide
theorem test_CF5_call : after 0x2300 (fun s => s.setStack (stackOf 15)) (fun t => (t.pc, t.stack)) =
    some (0x300, stackOf 16) := by decide
theorem test_CF6_call_full : after 0x2300 (fun s => s.setStack (stackOf 16)) (fun t => (t.pc, t.stack, t.status)) =
    some (0x200, stackOf 16, .halted .stackOverflow) := by decide
theorem test_CF9_CF10_se : after 0x3342 (fun s => s.setReg 3 0x42) State.pc = some 0x204 ∧
    after 0x3342 (fun s => s.setReg 3 0x41) State.pc = some 0x202 := by decide
theorem test_CF11_sne : after 0x4342 (fun s => s.setReg 3 0x42) State.pc = some 0x202 ∧
    after 0x4342 (fun s => s.setReg 3 0x41) State.pc = some 0x204 := by decide
theorem test_FD10_se_registers_alias : after 0x5121 (fun s => (s.setReg 1 7).setReg 2 7) State.pc = some 0x204 := by decide
theorem test_FD11_sne_registers_alias : after 0x912F (fun s => (s.setReg 1 7).setReg 2 8) State.pc = some 0x204 := by decide
theorem test_CF14_sne_same_register : after 0x9110 (fun s => s.setReg 1 9) State.pc = some 0x202 := by decide
theorem test_CF17_offset_jump : after 0xB300 (fun s => s.setReg 0 4) State.pc = some 0x506 ∧
    after 0xB300 (fun s => withMode .absolute (s.setReg 0 4)) State.pc = some 0x304 := by decide
theorem test_CF19_offset_jump_high : after 0xBFFF (fun s => (s.setReg 0 0xFF).setPc 0xFFE) State.pc = some 0x20FE ∧
    after 0xBFFF (fun s => withMode .absolute ((s.setReg 0 0xFF).setPc 0xFFE)) State.pc = some 0x10FE := by decide

/-! ### ALU -/

/-- The flag and destination after an 8xy* word on V1, V2 and VF. -/
def alu (w : Nat) (v1 v2 f : Byte) : Option (Byte × Byte × Word) :=
  after w (fun s => ((s.setReg 1 v1).setReg 2 v2).setReg vf f) (fun t => (t.reg 1, t.reg vf, t.pc))

theorem test_AL1_load_byte : after 0x6FAA id (fun t => t.reg vf) = some 0xAA := by decide
theorem test_AL2_add_byte : after 0x7001 (fun s => (s.setReg 0 0xFF).setReg vf 7) (fun t => (t.reg 0, t.reg vf)) =
    some (0, 7) := by decide
theorem test_AL4_load_register : after 0x8F20 (fun s => s.setReg 2 0x33) (fun t => (t.reg vf, t.reg 2)) =
    some (0x33, 0x33) := by decide
theorem test_R196_or : alu 0x8121 0x0F 0xF0 1 = some (0xFF, 0, 0x202) := by decide
theorem test_AL6_and : alu 0x8122 0x3C 0x0F 1 = some (0x0C, 0, 0x202) := by decide
theorem test_AL7_xor : alu 0x8113 0x5A 0 1 = some (0, 0, 0x202) ∧ alu 0x8123 0x3C 0x0F 1 = some (0x33, 0, 0x202) := by
  decide
theorem test_AL8_AL9_add : alu 0x8124 0xFE 0x01 1 = some (0xFF, 0, 0x202) ∧
    alu 0x8124 0x80 0x80 0 = some (0, 1, 0x202) := by decide
theorem test_AL11_add_reads_old_VF : alu 0x81F4 0x10 0 1 = some (0x11, 0, 0x202) := by decide
theorem test_AL13_AL14_sub : alu 0x8125 0x03 0x05 1 = some (0xFE, 0, 0x202) ∧
    alu 0x8125 0x40 0x40 0 = some (0, 1, 0x202) := by decide
theorem test_AL16_AL17_shr : alu 0x8126 0xAA 0x04 1 = some (0x02, 0, 0x202) ∧
    alu 0x8126 0xAA 0x01 0 = some (0, 1, 0x202) := by decide
theorem test_AL19_AL20_subn : alu 0x8127 0x05 0x03 1 = some (0xFE, 0, 0x202) ∧
    alu 0x8127 0x03 0x05 0 = some (0x02, 1, 0x202) := by decide
theorem test_AL22_AL23_shl : alu 0x812E 0xAA 0x80 0 = some (0, 1, 0x202) ∧
    alu 0x812E 0xAA 0x7F 1 = some (0xFE, 0, 0x202) := by decide
theorem test_AL15_VF_destination :
    after 0x8F25 (fun s => (s.setReg vf 5).setReg 2 3) (fun t => t.reg vf) = some 1 ∧
    after 0x8F25 (fun s => withOrder .resultLast ((s.setReg vf 5).setReg 2 3)) (fun t => t.reg vf) = some 2 := by decide
theorem test_AL18_AL25_VF_shifts :
    after 0x8F26 (fun s => s.setReg 2 6) (fun t => t.reg vf) = some 0 ∧
    after 0x8F26 (fun s => withOrder .resultLast (s.setReg 2 6)) (fun t => t.reg vf) = some 3 ∧
    after 0x8F2E (fun s => withOrder .resultLast (s.setReg 2 0xC0)) (fun t => t.reg vf) = some 0x80 := by decide
theorem test_AL26_AL28_random : seen (step (ready 0xC5F0 id 0xFF)) (fun t => t.reg 5) = some 0xF0 ∧
    seen (step (ready 0xC5FF id 0x3C)) (fun t => t.reg 5) = some 0x3C := by decide

/-! ### Index and memory -/

theorem test_MM2_load_index : after 0xA123 (fun s => s.setI 0x1000) State.i = some 0x0123 := by decide
theorem test_MM3_MM4_add_index :
    after 0xF01E (fun s => (s.setI 0xFFE).setReg 0 1) (fun t => (t.i, t.reg vf)) = some (0xFFF, 0) ∧
    after 0xF01E (fun s => (s.setI 0xFFF).setReg 0 1) (fun t => (t.i, t.reg vf)) = some (0x1000, 1) := by decide
theorem test_MM6_MM7_add_index :
    after 0xF01E (fun s => (s.setI 0xFFFF).setReg 0 1) (fun t => (t.i, t.reg vf)) = some (0, 1) ∧
    after 0xFF1E (fun s => (s.setI 0x100).setReg vf 5) (fun t => (t.i, t.reg vf)) = some (0x105, 0) := by decide
theorem test_MM9_MM11_glyph : after 0xF029 (fun s => s.setReg 0 0x0F) State.i = some 0x09B ∧
    after 0xF029 (fun s => s.setReg 0 0xFF) State.i = some 0x54B := by decide
theorem test_MM13_bcd : after 0xF033 (fun s => (s.setReg 0 0xFF).setI 0x300)
    (fun t => (t.mem.readBytes 0x300 3, t.i)) = some ([2, 5, 5], 0x300) := by decide
theorem test_MM16_bcd_outside : after 0xF033 (fun s => (s.setReg 0 0xFF).setI 0xFFE)
    (fun t => (t.status, t.pc, t.mem.readBytes 0xFFE 2)) = some (.halted .memoryOutOfBounds, 0x200, [0, 0]) := by decide
theorem test_L1_8_store : after 0xF255 (fun s => (((s.setReg 0 0x11).setReg 1 0x22).setReg 2 0x33).setReg 3 0x44 |>.setI 0x300)
    (fun t => (t.mem.readBytes 0x300 4, t.i)) = some ([0x11, 0x22, 0x33, 0], 0x303) := by decide
theorem test_MM18_MM19_store_at_the_top :
    after 0xF055 (fun s => (s.setReg 0 0xAB).setI 0xFFF) (fun t => (t.mem.read 0xFFF, t.i)) = some (0xAB, 0x1000) ∧
    after 0xF155 (fun s => (s.setReg 0 0xAB).setI 0xFFF) (fun t => (t.mem.read 0xFFF, t.i, t.status)) =
      some (0, 0xFFF, .halted .memoryOutOfBounds) := by decide
theorem test_MM21_load : after 0xF265 (fun s => (s.setMem [(0x301, 1), (0x302, 2), (0x303, 3)]).setI 0x300)
    (fun t => (t.reg 1, t.reg 2, t.reg 3, t.i)) = some (1, 2, 0, 0x303) := by decide
theorem test_MM22_load_outside : after 0xF065 (fun s => s.setI 0x1000) (fun t => (t.status, t.i, t.pc)) =
    some (.halted .memoryOutOfBounds, 0x1000, 0x200) := by decide

/-! ### Keypad, timers, host events -/

theorem test_KT1_KT2_skp : after 0xE49E (fun s => keyDown 5 (s.setReg 4 5)) State.pc = some 0x204 ∧
    after 0xE49E (fun s => s.setReg 4 5) State.pc = some 0x202 := by decide
theorem test_KT5_skp_out_of_range : after 0xE49E (fun s => s.setReg 4 0x10) (fun t => (t.status, t.pc)) =
    some (.halted .keyOutOfRange, 0x200) := by decide
theorem test_KT3_KT4_sknp : after 0xE4A1 (fun s => keyDown 5 (s.setReg 4 5)) State.pc = some 0x202 ∧
    after 0xE4A1 (fun s => s.setReg 4 5) State.pc = some 0x204 := by decide
theorem test_KT7_wait_key : after 0xF20A (fun s => keyDown 9 (keyDown 3 s)) (fun t => (t.reg 2, t.pc, t.keys[3])) =
    some (3, 0x202, true) := by decide
theorem test_KT9_wait_no_key : after 0xF20A (fun s => s.setReg 2 0x77) (fun t => (t.reg 2, t.pc)) = some (0x77, 0x200) := by
  decide
theorem test_KT10_read_delay : after 0xF107 (fun s => s.setDt 0x3C) (fun t => t.reg 1) = some 0x3C := by decide
theorem test_R265_set_delay : after 0xF315 (fun s => s.setReg 3 0x3C) (fun t => (t.dt, t.st)) = some (0x3C, 0) := by decide
theorem test_KT12_set_sound : after 0xF118 (fun s => s.setReg 1 0xFF) (fun t => (t.dt, t.st)) = some (0, 0xFF) := by decide

theorem test_KT13_KT15_timer_tick :
    seen (applyEvent .timerTick ((State.reset.setDt 2).setSt 0 |>.halt .unknownOpcode)) (fun t => (t.dt, t.st, t.status)) =
      some (1, 0, .halted .unknownOpcode) := by decide
theorem test_KT16_KT18_keys :
    seen (applyEvent (.keyDown 7) State.reset) (fun t => (t.keys[7], t.keys[6])) = some (true, false) ∧
    seen (applyEvent (.keyUp 7) (keyDown 7 State.reset)) (fun t => t.keys[7]) = some false := by decide
theorem test_KT19_redraw_ack : seen (applyEvent .redrawAck (State.reset.setRedraw true)) State.redraw = some false := by
  decide
theorem test_RS1_reset :
    seen (applyEvent .reset (((State.reset.setMem [(0x050, 1), (0x300, 1)]).setStack [1]).setReg 3 9 |>.halt .stackOverflow))
      (fun t => (t.status, t.pc, t.stack, t.mem.read 0x050, t.mem.read 0x300, t.reg 3)) =
      some (.running, 0x200, [], 0xF0, 0, 0) := by decide
theorem test_load_of_scenario :
    seen (applyEvent (.load [0x00, 0xE0, 0x60, 0x05] 4) State.reset) (fun t => (t.mem.readBytes 0x200 5, t.env.loadReport)) =
      some ([0x00, 0xE0, 0x60, 0x05, 0], some .ok) := by decide
theorem test_RS3_RS4_load_fails :
    seen (applyEvent (.load [1, 2, 3] 3585) State.reset) (fun t => (t.mem, t.env.loadReport)) =
      some ([], some .romTooLarge) ∧
    seen (applyEvent (.load [1, 2, 3] 4) State.reset) (fun t => (t.mem, t.env.loadReport)) =
      some ([], some .romReadShort) := by decide
theorem test_observe : (((State.reset.setStack [0x202, 0x300]).setDt 3).halt .keyOutOfRange).observe.snapshot = [0x202, 0x300] ∧
    (State.reset.halt .keyOutOfRange).observe.status = 5 ∧ State.reset.observe.status = 0 := by decide

/-- R294 and R299: the rest of the state, for diagnostics. -/
theorem test_observe_all_state :
    let o := ((keyDown 7 State.reset).setReg 3 9 |>.setI 0x300 |>.setMem [(0x300, 1)]).observe
    o.v[3] = 9 ∧ o.i = 0x300 ∧ o.pc = 0x200 ∧ o.mem.read 0x300 = 1 ∧ o.mem.read 0x050 = 0xF0 ∧ o.keys[7] = true ∧
      o.keys[6] = false := by decide

/-! ### Witnesses: the hypotheses of each statement can be met -/

/-- A state whose stack is full, one whose I is at the top of memory, one whose PC cannot be fetched. -/
def full : State := State.reset.setStack (stackOf 16)
def atTop : State := State.reset.setI 0xFFF

theorem witness_EncodeOfDecodeIsTheWord :
    decodeWord 0x5121 = .ok (.seReg 1 2) ∧ (fieldsOf 0x5121).op = 0x5 ∧
    decodeWord 0x912F = .ok (.sneReg 1 2) ∧ (fieldsOf 0x912F).op = 0x9 ∧
    decodeWord 0xF165 = .ok (.loadRegs 1) ∧ ¬ ((fieldsOf 0xF165).op = 0x5 ∨ (fieldsOf 0xF165).op = 0x9) := by decide

theorem witness_StepRunsTheDecodedInstruction :
    let s := (State.reset.setPc 0xFFE).withFetchWord 16 0x1200
    (s.status = .running ∧ s.pc.toNat + 1 ≤ 0xFFF ∧ s.env.schedule = [] ∧
      decodeWord (wordOfBytes (s.mem.read s.pc.toNat) (s.mem.read (s.pc.toNat + 1))) = .ok (.jp 0x200)) ∧
    (ready 0x1200).status = .running ∧ (ready 0x1200).pc.toNat + 1 ≤ 0xFFF ∧
    (ready 0x1200).env.schedule = [.tick 0] ∧
    decodeWord (wordOfBytes ((ready 0x1200).mem.read 0x200) ((ready 0x1200).mem.read 0x201)) = .ok (.jp 0x200) := by decide

theorem witness_FetchOutsideMemoryHalts :
    (State.reset.setPc 0xFFF).status = .running ∧ 0xFFF < (State.reset.setPc 0xFFF).pc.toNat + 1 ∧
    0xFFF < (State.reset.setPc 0xFFFF).pc.toNat + 1 := by decide

theorem witness_UnknownWordHalts :
    State.reset.status = .running ∧ State.reset.pc.toNat + 1 ≤ 0xFFF ∧
    Word.known (wordOfBytes (State.reset.mem.read State.reset.pc.toNat) (State.reset.mem.read (State.reset.pc.toNat + 1))) =
      false := by decide

theorem witness_HaltedTickChangesNothing :
    (State.reset.halt .stackOverflow).status = .halted .stackOverflow ∧
    (State.reset.halt .stackOverflow).env.schedule = [] ∧
    ((ready 0x1200).halt .stackOverflow).status = .halted .stackOverflow ∧
    ((ready 0x1200).halt .stackOverflow).env.schedule = [.tick 0] := by decide

theorem witness_FaultingTickIsUndone : (ready 0x00EE).status = .running ∧
    ∃ t, applyEvent (.tick 0) (ready 0x00EE) = .next t ∧ t.status = .halted .stackUnderflow := by
  refine ⟨rfl, _, rfl, ?_⟩
  decide

/-- One state for each reason an instruction halts with, and one for an instruction that does not. -/
theorem witness_HaltReasonsOfInstructions :
    State.reset.status = .running ∧ full.status = .running ∧ atTop.status = .running ∧
    seen (exec .ret State.reset) State.status = some (.halted .stackUnderflow) ∧
    seen (exec (.call 0) full) State.status = some (.halted .stackOverflow) ∧
    seen (exec (.drw 0 0 2) atTop) State.status = some (.halted .memoryOutOfBounds) ∧
    seen (exec (.bcd 0) (State.reset.setI 0xFFE)) State.status = some (.halted .memoryOutOfBounds) ∧
    seen (exec (.storeRegs 1) atTop) State.status = some (.halted .memoryOutOfBounds) ∧
    seen (exec (.loadRegs 1) atTop) State.status = some (.halted .memoryOutOfBounds) ∧
    seen (exec (.skp 0) (State.reset.setReg 0 16)) State.status = some (.halted .keyOutOfRange) ∧
    seen (exec (.drw 0 0 1) atTop) State.status = some .running := by decide

theorem witness_StepKeepsTheInvariant : State.Inv State.reset ∧ (∃ t, step State.reset = .next t) ∧
    State.Inv full ∧ ∃ t, step (full.withFetchWord 16 0x00EE) = .next t := by
  refine ⟨?_, ⟨_, rfl⟩, ?_, ⟨_, rfl⟩⟩ <;> unfold State.Inv <;> decide

theorem witness_KeypadIsWrittenByTheHostOnly :
    (∃ t, exec (.waitKey 0) State.reset = .next t) ∧
    (∀ x, Instr.cls ≠ .skp x ∧ Instr.cls ≠ .sknp x ∧ Instr.cls ≠ .waitKey x) ∧ (∃ t, exec .cls State.reset = .next t) ∧
    ∃ t, applyEvent (.tick 0) (ready 0xF00A) = .next t :=
  ⟨⟨_, rfl⟩, by simp, ⟨_, rfl⟩, _, rfl⟩

theorem witness_RedrawFlagIsSetByClearAndDraw :
    (∃ t, exec .cls State.reset = .next t) ∧
    (State.reset.status = .running ∧ ∃ t, exec (.drw 0 0 0) State.reset = .next t ∧ t.status = .running) ∧
    (∃ t, exec .ret (State.reset.setRedraw true) = .next t ∧ (State.reset.setRedraw true).redraw = true) ∧
    ∃ t, Instr.ret ≠ .cls ∧ (∀ x y n, Instr.ret ≠ .drw x y n) ∧ exec .ret State.reset = .next t :=
  ⟨⟨_, rfl⟩, ⟨rfl, _, rfl, rfl⟩, ⟨_, rfl, rfl⟩, _, by decide, by simp, rfl⟩

theorem witness_DisplayChangesByClearDrawAndReset :
    (∃ t, Instr.ret ≠ .cls ∧ (∀ x y n, Instr.ret ≠ .drw x y n) ∧ exec .ret State.reset = .next t) ∧
    ∃ t, Event.redrawAck ≠ .reset ∧ (∀ r, Event.redrawAck ≠ .tick r) ∧ applyEvent .redrawAck State.reset = .next t :=
  ⟨⟨_, by decide, by simp, rfl⟩, _, by decide, by simp, rfl⟩

theorem witness_StackBelongsToCallAndReturn :
    (∃ t, Instr.cls ≠ .ret ∧ (∀ nnn, Instr.cls ≠ .call nnn) ∧ exec .cls State.reset = .next t) ∧
    (∃ t, exec (.call 0x300) State.reset = .next t) ∧ (∃ t, exec .ret full = .next t) ∧
    ∃ t, Event.timerTick ≠ .reset ∧ (∀ r, Event.timerTick ≠ .tick r) ∧ applyEvent .timerTick State.reset = .next t :=
  ⟨⟨_, by decide, by simp, rfl⟩, ⟨_, rfl⟩, ⟨_, rfl⟩, _, by decide, by simp, rfl⟩

/-- The byte below and the byte above the stored ones, and an instruction that stores nothing. -/
theorem witness_MemoryIsWrittenByStoresOnly :
    (∃ t, exec (.bcd 0) (State.reset.setI 0xFFD) = .next t) ∧ (State.reset.setI 0xFFD).i.toNat = 0xFFD ∧
    (∀ a ∈ [0xFFC, 0x1000], ¬ ((State.reset.setI 0xFFD).i.toNat ≤ a ∧ a ≤ (State.reset.setI 0xFFD).i.toNat + 2)) ∧
    (∃ t, exec (.storeRegs 2) (State.reset.setI 0x300) = .next t) ∧
    (∀ a ∈ [0x2FF, 0x303],
      ¬ ((State.reset.setI 0x300).i.toNat ≤ a ∧ a ≤ (State.reset.setI 0x300).i.toNat + (2 : Reg).val)) ∧
    ∃ t, exec .cls State.reset = .next t :=
  ⟨⟨_, rfl⟩, by decide, by decide, ⟨_, rfl⟩, by decide, _, rfl⟩

theorem witness_TimersBelongToTheirInstructions :
    (∃ t, (∀ x, Instr.cls ≠ .setDelay x) ∧ (∀ x, Instr.cls ≠ .readDelay x) ∧ exec .cls State.reset = .next t) ∧
    ∃ t, (∀ x, Instr.readDelay 1 ≠ .setSound x) ∧ exec (.readDelay 1) State.reset = .next t :=
  ⟨⟨_, by simp, by simp, rfl⟩, _, by simp, rfl⟩

theorem witness_RandomByteIsReadByRndOnly :
    ∃ t, (∀ x nn, Instr.cls ≠ .rnd x nn) ∧ exec .cls State.reset = .next t := ⟨_, by simp, rfl⟩

theorem witness_ParametersNeverChange : ∃ t, step State.reset = .next t := ⟨_, rfl⟩

/-- A Tick that keeps the halt, and a Reset that ends it. -/
theorem witness_OnlyResetLeavesHalted :
    (State.reset.halt .keyOutOfRange).status = .halted .keyOutOfRange ∧
    (∃ t, step (State.reset.halt .keyOutOfRange) = .next t) ∧
    seen (step (State.reset.halt .keyOutOfRange |>.setEnv { Env.reset with schedule := [.reset] })) State.status =
      some .running := ⟨rfl, ⟨_, rfl⟩, by decide⟩

theorem witness_ReadAfterWrite : Memory.wf [] = true ∧ 0xFFF ≤ 0xFFF ∧
    Memory.wf (Memory.write [] 0xFFF 1) = true := by decide

theorem witness_CanonicalMemoriesWithEqualBytesAreEqual :
    Memory.wf [(0x300, 1)] = true ∧ ∀ a, Memory.read [(0x300, 1)] a = Memory.read [(0x300, 1)] a :=
  ⟨by decide, fun _ => rfl⟩

/-- V0 and V1 stored over the word at PC. -/
theorem witness_StoredBytesAreFetchedNext :
    State.Inv (State.reset.setI 0x200) ∧ (State.reset.setI 0x200).status = .running ∧
    (∃ t, exec (.storeRegs 1) (State.reset.setI 0x200) = .next t ∧ t.status = .running) ∧
    (0 : Reg).val + 1 ≤ (1 : Reg).val ∧ (State.reset.setI 0x200).pc.toNat = (State.reset.setI 0x200).i.toNat + (0 : Reg).val := by
  refine ⟨?_, rfl, ⟨_, rfl, ?_⟩, by decide, by decide⟩
  · unfold State.Inv
    decide
  · decide

theorem witness_ResetConstructsTheUnit : State.Inv full := by
  unfold State.Inv
  decide

theorem witness_ResetStateIsTheDefaultUnit : full.env.params = paramsDefault := by decide

theorem witness_LoadPlacesTheImage :
    State.Inv State.reset ∧ State.reset.env.loadable = true ∧ 3584 ≤ 3584 ∧ 3584 ≤ (List.replicate 3584 (1 : Byte)).length ∧
    0 ≤ ([] : List Byte).length ∧ 2 ≤ ([1, 2, 3] : List Byte).length := by
  refine ⟨?_, rfl, le_rfl, List.length_replicate.ge, by decide, by decide⟩
  unfold State.Inv
  decide

theorem witness_FailedLoadWritesNothing :
    State.reset.env.loadable = true ∧ 3584 < 3585 ∧ 4 ≤ 3584 ∧ ([1, 2, 3] : List Byte).length < 4 := by decide

theorem witness_LoadIsRefusedOutOfOrder :
    (∃ t, applyEvent (.load [] 0) State.reset = .next t ∧ t.env.loadable = false) ∧ State.reset.status = .running ∧
    (∃ t, applyEvent (.tick 0) State.reset = .next t) ∧ ∃ t, applyEvent .reset State.reset = .next t :=
  ⟨⟨_, rfl, rfl⟩, rfl, ⟨_, rfl⟩, _, rfl⟩

theorem witness_ScheduledEventIsApplied : (ready 0x1200).env.schedule = .tick 0 :: [] := by decide

/-- No row, one row at the top of memory, and the last rows that fit. -/
theorem witness_DrawTogglesPixelsAndReportsCollision :
    ((0 : BitVec 4).toNat = 0) ∧ atTop.i.toNat + ((1 : BitVec 4).toNat - 1) ≤ 0xFFF ∧
    (State.reset.setI 0xFF1).i.toNat + ((15 : BitVec 4).toNat - 1) ≤ 0xFFF := by decide

theorem witness_DrawOutsideMemoryHalts :
    0 < (2 : BitVec 4).toNat ∧ 0xFFF < atTop.i.toNat + ((2 : BitVec 4).toNat - 1) ∧
    0 < (1 : BitVec 4).toNat ∧ 0xFFF < (State.reset.setI 0x1000).i.toNat + ((1 : BitVec 4).toNat - 1) := by decide

theorem witness_DrawingTwiceRestoresTheDisplay :
    (0 : Reg) ≠ vf ∧ (1 : Reg) ≠ vf ∧ atTop.i.toNat + ((1 : BitVec 4).toNat - 1) ≤ 0xFFF ∧
    ∃ t u, exec (.drw 0 1 1) atTop = .next t ∧ exec (.drw 0 1 1) (t.setPc 0x202) = .next u :=
  ⟨by decide, by decide, by decide, _, _, rfl, rfl⟩

theorem witness_ReturnPopsTheStack :
    full.stack = stackOf 15 ++ [0x202] ∧ (State.reset.setStack [0x300]).stack = [] ++ [0x300] ∧ State.reset.stack = [] := by
  decide

theorem witness_CallPushesTheAdvancedPc :
    (State.reset.setStack (stackOf 15)).stack.length < 16 ∧ 16 ≤ full.stack.length := by decide

theorem witness_OffsetJumpFollowsItsMode :
    State.reset.env.params.bnnnMode = .postIncrement ∧
    (withMode .absolute State.reset).env.params.bnnnMode = .absolute := by decide

/-- For the four statements about 8xy1 to 8xyE with a destination other than VF. -/
theorem witness_Logic_Add_Subtractions_Shifts : (0 : Reg) ≠ vf ∧ (14 : Reg) ≠ vf := by decide

theorem witness_FlagDestinationFollowsItsOrder :
    State.reset.env.params.vfOrder = .flagLast ∧ (withOrder .resultLast State.reset).env.params.vfOrder = .resultLast ∧
    (Instr.or vf 0, 0, 0) ∈ vfWriters State.reset 0 ∧ (Instr.sub vf 0, 0, 1) ∈ vfWriters State.reset 0 ∧
    (Instr.shl vf 0, 0, 0) ∈ vfWriters State.reset 0 := by decide

theorem witness_BcdStoresThreeDigits :
    Memory.wf State.reset.mem = true ∧ (State.reset.setI 0xFFD).i.toNat + 2 ≤ 0xFFF := by decide

theorem witness_StoreRegistersWritesTheBlock :
    Memory.wf State.reset.mem = true ∧ atTop.i.toNat + (0 : Reg).val ≤ 0xFFF ∧
    (State.reset.setI 0xFF0).i.toNat + (15 : Reg).val ≤ 0xFFF := by decide

theorem witness_LoadRegistersReadsTheBlock :
    atTop.i.toNat + (0 : Reg).val ≤ 0xFFF ∧ (State.reset.setI 0xFF0).i.toNat + (15 : Reg).val ≤ 0xFFF := by decide

theorem witness_BlockAccessOutsideMemoryHalts :
    0xFFF < (State.reset.setI 0xFFE).i.toNat + 2 ∧ 0xFFF < atTop.i.toNat + (1 : Reg).val ∧
    0xFFF < (State.reset.setI 0x1000).i.toNat + (0 : Reg).val := by decide

theorem witness_KeySkipsTestOneKey :
    (State.reset.reg 0).toNat = (0 : Key).val ∧ ((State.reset.setReg 0 15).reg 0).toNat = (15 : Key).val := by decide

theorem witness_KeyOutOfRangeHalts :
    15 < ((State.reset.setReg 0 16).reg 0).toNat ∧ 15 < ((State.reset.setReg 0 255).reg 0).toNat := by decide

theorem witness_KeyWaitTakesTheLowestKey :
    ((keyDown 9 (keyDown 3 State.reset)).keys[(3 : Key)] = true ∧
      ∀ j : Key, j < 3 → (keyDown 9 (keyDown 3 State.reset)).keys[j] = false) ∧
    ((keyDown 15 State.reset).keys[(15 : Key)] = true ∧ ∀ j : Key, j < 15 → (keyDown 15 State.reset).keys[j] = false) ∧
    ∀ k : Key, State.reset.keys[k] = false := by decide

end Sys2Proof.Tests
end

section
/-! PROOFS. What an update of the display or of RD leaves unchanged, how two such frames compose, and 00E0 (R140). -/

namespace Sys2Proof.Machine

/-- The frames of two updates in a row add up. -/
theorem UnchangedExcept.trans {ps qs : List Part} {s t u : State} (hst : UnchangedExcept ps s t)
    (htu : UnchangedExcept qs t u) : UnchangedExcept (ps ++ qs) s u := by
  obtain ⟨reg, index, memory, stack, display, redraw, delay, sound, keys, status, env⟩ := hst
  obtain ⟨reg', index', memory', stack', display', redraw', delay', sound', keys', status', env'⟩ := htu
  simp only [UnchangedExcept, List.mem_append, not_or]
  exact ⟨fun r h => (reg' r h.2).trans (reg r h.1), fun h => (index' h.2).trans (index h.1),
    fun h a => (memory' h.2 a).trans (memory h.1 a), fun h => (stack' h.2).trans (stack h.1),
    fun h => (display' h.2).trans (display h.1), fun h => (redraw' h.2).trans (redraw h.1),
    fun h => (delay' h.2).trans (delay h.1), fun h => (sound' h.2).trans (sound h.1),
    keys'.trans keys, status'.trans status, env'.trans env⟩

theorem setDisplay_unchangedExcept (s : State) (d : Display) : UnchangedExcept [.display] s (s.setDisplay d) := by
  simp [UnchangedExcept]

theorem setRedraw_unchangedExcept (s : State) (b : Bool) : UnchangedExcept [.redraw] s (s.setRedraw b) := by
  simp [UnchangedExcept]

theorem exec_cls (s : State) : exec .cls s = .next ((s.setDisplay Display.blank).setRedraw true) := rfl

/-- Settles O33: 00E0 writes the blank display and RD, and its frame is that of the two writes. -/
theorem clearScreenTurnsEveryPixelOff : Obligations.ClearScreenTurnsEveryPixelOff := by
  unfold Obligations.ClearScreenTurnsEveryPixelOff
  refine ⟨by decide, fun s => ⟨_, exec_cls s, fun c r => ?_, ?_, ?_, ?_⟩⟩
  · simp
  · simp
  · simp
  · exact (setDisplay_unchangedExcept s _).trans (setRedraw_unchangedExcept _ true)

end Sys2Proof.Machine
end

section
/-! PROOFS. What a write of PC and a skip (R164) do and leave unchanged, and 1nnn, 3xnn and 4xnn (R162, R165, R166). -/

namespace Sys2Proof

/-- A word decodes to the instruction its fields select (R95). -/
theorem decodeWord_of_selectInstr {w : Word} {i : Instr} (h : selectInstr (fieldsOf w) = some i) :
    decodeWord w = .ok i := by
  simp [decodeWord, h]

theorem decodeWord_wordA_jp (nnn : BitVec 12) : decodeWord (wordA 0x1 nnn) = .ok (.jp nnn) :=
  decodeWord_of_selectInstr (by simp [selectInstr])

theorem decodeWord_wordXI_seByte (x : Reg) (nn : Byte) : decodeWord (wordXI 0x3 x nn) = .ok (.seByte x nn) :=
  decodeWord_of_selectInstr (by simp [selectInstr])

theorem decodeWord_wordXI_sneByte (x : Reg) (nn : Byte) : decodeWord (wordXI 0x4 x nn) = .ok (.sneByte x nn) :=
  decodeWord_of_selectInstr (by simp [selectInstr])

namespace Machine

theorem setPc_unchangedExcept (s : State) (a : Word) : UnchangedExcept [] s (s.setPc a) := by
  simp [UnchangedExcept]

@[simp] theorem zext16_toNat (nnn : BitVec 12) : (zext16 nnn).toNat = nnn.toNat := by
  simp only [zext16, BitVec.toNat_setWidth]
  omega

theorem skip_unchangedExcept (s : State) (c : Bool) : UnchangedExcept [] s (s.skip c) := by
  rw [State.skip_eq]
  exact setPc_unchangedExcept s _

/-- A skip moves PC 2 further, mod 2^16, exactly when its condition holds (R164, R28). -/
theorem skip_pc_toNat (s : State) (c : Bool) :
    (s.skip c).pc.toNat = (s.pc.toNat + if c then 2 else 0) % 0x10000 := by
  rw [State.skip_eq, State.setPc_pc]
  cases c
  case false => simp only [Bool.false_eq_true, if_false]; omega
  case true => simp [BitVec.toNat_add]

theorem exec_jp (nnn : BitVec 12) (s : State) : exec (.jp nnn) s = .next (s.setPc (zext16 nnn)) := rfl

theorem exec_seByte (x : Reg) (nn : Byte) (s : State) :
    exec (.seByte x nn) s = .next (s.skip (s.reg x == nn)) := rfl

theorem exec_sneByte (x : Reg) (nn : Byte) (s : State) :
    exec (.sneByte x nn) s = .next (s.skip (s.reg x != nn)) := rfl

/-- Settles O38: 1nnn is one write of PC, and zero-extending nnn keeps its value. -/
theorem jumpSetsThePc : Obligations.JumpSetsThePc := by
  unfold Obligations.JumpSetsThePc
  refine fun s nnn => ⟨decodeWord_wordA_jp nnn, _, exec_jp nnn s, ?_, setPc_unchangedExcept s _⟩
  exact zext16_toNat nnn

/-- Settles O40: 3xnn and 4xnn are the skip of R164 on opposite conditions. -/
theorem skipsCompareRegisterWithByte : Obligations.SkipsCompareRegisterWithByte := by
  unfold Obligations.SkipsCompareRegisterWithByte
  refine fun s x nn => ⟨decodeWord_wordXI_seByte x nn, decodeWord_wordXI_sneByte x nn,
    ⟨_, exec_seByte x nn s, ?_, skip_unchangedExcept s _⟩, _, exec_sneByte x nn s, ?_, skip_unchangedExcept s _⟩
  · simp only [skip_pc_toNat, beq_iff_eq]
  · simp only [skip_pc_toNat, bne_iff_ne, ite_not]

end Machine
end Sys2Proof
end

section
/-! PROOFS. What a write of one register leaves unchanged, and 6xnn, 7xnn and 8xy0 (R193, R194, R195). -/

namespace Sys2Proof

theorem decodeWord_wordXI_ldByte (x : Reg) (nn : Byte) : decodeWord (wordXI 0x6 x nn) = .ok (.ldByte x nn) :=
  decodeWord_of_selectInstr (by simp [selectInstr])

theorem decodeWord_wordXI_addByte (x : Reg) (nn : Byte) : decodeWord (wordXI 0x7 x nn) = .ok (.addByte x nn) :=
  decodeWord_of_selectInstr (by simp [selectInstr])

theorem decodeWord_wordXY_ldReg (x y : Reg) : decodeWord (wordXY 0x8 x y 0x0) = .ok (.ldReg x y) :=
  decodeWord_of_selectInstr (by simp [selectInstr, decodeCategory8])

namespace Machine

theorem setReg_reg_self (s : State) (x : Reg) (b : Byte) : (s.setReg x b).reg x = b := by
  rw [State.setReg_reg, if_pos rfl]

theorem setReg_unchangedExcept (s : State) (x : Reg) (b : Byte) : UnchangedExcept [.reg x] s (s.setReg x b) := by
  have other (r : Reg) (h : Part.reg r ∉ [Part.reg x]) : (s.setReg x b).reg r = s.reg r := by
    have hne : r ≠ x := by simpa using h
    rw [State.setReg_reg, if_neg hne]
  exact ⟨other, by simp⟩

theorem exec_ldByte (x : Reg) (nn : Byte) (s : State) : exec (.ldByte x nn) s = .next (s.setReg x nn) := rfl

theorem exec_addByte (x : Reg) (nn : Byte) (s : State) :
    exec (.addByte x nn) s = .next (s.setReg x (s.reg x + nn)) := rfl

theorem exec_ldReg (x y : Reg) (s : State) : exec (.ldReg x y) s = .next (s.setReg x (s.reg y)) := rfl

/-- Settles O43: each of the three is one write of VX, so its frame is that of the write; byte addition is
addition mod 256. -/
theorem loadsAndAddByteWriteOneRegister : Obligations.LoadsAndAddByteWriteOneRegister := by
  unfold Obligations.LoadsAndAddByteWriteOneRegister
  refine fun s x y nn => ⟨decodeWord_wordXI_ldByte x nn, decodeWord_wordXI_addByte x nn, decodeWord_wordXY_ldReg x y,
    ⟨_, exec_ldByte x nn s, setReg_reg_self s x nn, s.setReg_pc x nn, setReg_unchangedExcept s x nn⟩,
    ⟨_, exec_addByte x nn s, ?_, s.setReg_pc x _, setReg_unchangedExcept s x _⟩,
    ⟨_, exec_ldReg x y s, setReg_reg_self s x _, s.setReg_pc x _, setReg_unchangedExcept s x _⟩⟩
  rw [setReg_reg_self, BitVec.toNat_add]

end Machine
end Sys2Proof
end

section
/-! PROOFS. What a write of I leaves unchanged, and Annn (R230). -/

namespace Sys2Proof

theorem decodeWord_wordA_ldI (nnn : BitVec 12) : decodeWord (wordA 0xA nnn) = .ok (.ldI nnn) :=
  decodeWord_of_selectInstr (by simp [selectInstr])

namespace Machine

theorem setI_unchangedExcept (s : State) (a : Word) : UnchangedExcept [.index] s (s.setI a) := by
  simp [UnchangedExcept]

theorem exec_ldI (nnn : BitVec 12) (s : State) : exec (.ldI nnn) s = .next (s.setI (zext16 nnn)) := rfl

/-- Settles O50: Annn is one write of I, so its frame is that of the write, and zero-extending nnn keeps its value. -/
theorem loadIndexZeroExtends : Obligations.LoadIndexZeroExtends := by
  unfold Obligations.LoadIndexZeroExtends
  refine fun s nnn =>
    ⟨decodeWord_wordA_ldI nnn, _, exec_ldI nnn s, ?_, s.setI_pc (zext16 nnn), setI_unchangedExcept s _⟩
  rw [State.setI_i, zext16_toNat]

end Machine
end Sys2Proof
end

section
/-! PROOFS. What a write of DT or of ST leaves unchanged, and Fx07, Fx15 and Fx18 (R263, R265, R266). -/

namespace Sys2Proof

theorem decodeWord_wordXI_readDelay (x : Reg) : decodeWord (wordXI 0xF x 0x07) = .ok (.readDelay x) :=
  decodeWord_of_selectInstr (by simp [selectInstr, decodeCategoryF])

theorem decodeWord_wordXI_setDelay (x : Reg) : decodeWord (wordXI 0xF x 0x15) = .ok (.setDelay x) :=
  decodeWord_of_selectInstr (by simp [selectInstr, decodeCategoryF])

theorem decodeWord_wordXI_setSound (x : Reg) : decodeWord (wordXI 0xF x 0x18) = .ok (.setSound x) :=
  decodeWord_of_selectInstr (by simp [selectInstr, decodeCategoryF])

namespace Machine

theorem setDt_unchangedExcept (s : State) (b : Byte) : UnchangedExcept [.delay] s (s.setDt b) := by
  simp [UnchangedExcept]

theorem setSt_unchangedExcept (s : State) (b : Byte) : UnchangedExcept [.sound] s (s.setSt b) := by
  simp [UnchangedExcept]

theorem exec_readDelay (x : Reg) (s : State) : exec (.readDelay x) s = .next (s.setReg x s.dt) := rfl

theorem exec_setDelay (x : Reg) (s : State) : exec (.setDelay x) s = .next (s.setDt (s.reg x)) := rfl

theorem exec_setSound (x : Reg) (s : State) : exec (.setSound x) s = .next (s.setSt (s.reg x)) := rfl

/-- Settles O60: each of the three is one write, of VX, of DT or of ST, so its frame is that of the write. -/
theorem timerInstructionsCopyOneByte : Obligations.TimerInstructionsCopyOneByte := by
  unfold Obligations.TimerInstructionsCopyOneByte
  exact fun s x =>
    ⟨decodeWord_wordXI_readDelay x, decodeWord_wordXI_setDelay x, decodeWord_wordXI_setSound x,
      ⟨_, exec_readDelay x s, setReg_reg_self s x s.dt, s.setReg_pc x s.dt, setReg_unchangedExcept s x s.dt⟩,
      ⟨_, exec_setDelay x s, s.setDt_dt (s.reg x), s.setDt_pc (s.reg x), setDt_unchangedExcept s (s.reg x)⟩,
      ⟨_, exec_setSound x s, s.setSt_st (s.reg x), s.setSt_pc (s.reg x), setSt_unchangedExcept s (s.reg x)⟩⟩

end Machine
end Sys2Proof
end

section
/-! PROOFS. The decoder and the encoder against each other and against the spec's list of unknown words (R91 to
R101). -/

namespace Sys2Proof

/-- The fields of an instruction's word select the instruction: by the shapes of R92, and within categories 0, 8, E and
F by the field that R94 dispatches on. -/
theorem selectInstr_encode (i : Instr) : selectInstr (fieldsOf (encode i)) = some i := by
  cases i
  case cls | ret => decide
  case jp | call | ldI | jpV0 => simp [encode, selectInstr]
  case seByte | sneByte | ldByte | addByte | rnd => simp [encode, selectInstr]
  case seReg | sneReg | drw => simp [encode, selectInstr]
  case ldReg | or | and | xor | addReg | sub | shr | subn | shl => simp [encode, selectInstr, decodeCategory8]
  case skp | sknp => simp [encode, selectInstr, decodeCategoryE]
  case readDelay | waitKey | setDelay | setSound | addI | glyph | bcd | storeRegs | loadRegs =>
    simp [encode, selectInstr, decodeCategoryF]

theorem decodeWord_encode (i : Instr) : decodeWord (encode i) = .ok i :=
  decodeWord_of_selectInstr (selectInstr_encode i)

theorem decode_encodeBytes (i : Instr) (rest : List Byte) : decode (encodeBytes i ++ rest) = .ok (i, rest) := by
  rw [encodeBytes, decode_bytesOfWord, decodeWord_encode]
  rfl

/-- A word's number, all 16 bits of it, has the word's bytes. -/
theorem tableBytes_toNat (w : Word) : tableBytes 16 w.toNat = bytesOfWord w := by
  rw [tableBytes, Nat.mod_eq_of_lt w.isLt, BitVec.ofNat_toNat, BitVec.setWidth_eq]

theorem decodeTableWord_encode (i : Instr) : decodeTableWord 16 (encode i).toNat = some i := by
  have h := decode_encodeBytes i []
  rw [List.append_nil] at h
  rw [decodeTableWord, tableBytes_toNat, ← encodeBytes, h]

/-- Settles O2: the word decodes back, its bytes are its word, and its table number has its bytes. -/
theorem decodeOfEncodeIsTheInstruction : Obligations.DecodeOfEncodeIsTheInstruction := by
  unfold Obligations.DecodeOfEncodeIsTheInstruction
  exact fun i rest => ⟨decodeWord_encode i, decode_encodeBytes i rest, decodeTableWord_encode i⟩

/-- Settles O1: nine fixed words, run through the decoder. -/
theorem sampleWordsDecode : Obligations.SampleWordsDecode := by
  unfold Obligations.SampleWordsDecode
  decide

/-! ### The unknown words (R96) -/

theorem nibble_cases (n : BitVec 4) :
    n = 0x0 ∨ n = 0x1 ∨ n = 0x2 ∨ n = 0x3 ∨ n = 0x4 ∨ n = 0x5 ∨ n = 0x6 ∨ n = 0x7 ∨
    n = 0x8 ∨ n = 0x9 ∨ n = 0xA ∨ n = 0xB ∨ n = 0xC ∨ n = 0xD ∨ n = 0xE ∨ n = 0xF := by
  revert n
  decide

/-! The decoder knows, in each category that has unknown words, exactly those that R96 does not list. -/

theorem isSome_decodeCategory0 (w : Word) : (decodeCategory0 (fieldsOf w)).isSome = Word.knownInCategory0 w := by
  change _ = ((fieldsOf w).nnn == 0x0E0 || (fieldsOf w).nnn == 0x0EE)
  simp [decodeCategory0, apply_ite Option.isSome, Bool.beq_eq_decide_eq]

theorem isSome_decodeCategory8 (w : Word) : (decodeCategory8 (fieldsOf w)).isSome = Word.knownInCategory8 w := by
  change _ = !([0x8, 0x9, 0xA, 0xB, 0xC, 0xD, 0xF] : List (BitVec 4)).contains (fieldsOf w).n
  rcases nibble_cases (fieldsOf w).n with h | h | h | h | h | h | h | h | h | h | h | h | h | h | h | h <;>
    simp [decodeCategory8, h]

theorem isSome_decodeCategoryE (w : Word) : (decodeCategoryE (fieldsOf w)).isSome = Word.knownInCategoryE w := by
  change _ = ([0x9E, 0xA1] : List Byte).contains (fieldsOf w).nn
  simp [decodeCategoryE, apply_ite Option.isSome]

theorem isSome_decodeCategoryF (w : Word) : (decodeCategoryF (fieldsOf w)).isSome = Word.knownInCategoryF w := by
  change _ = ([0x07, 0x0A, 0x15, 0x18, 0x1E, 0x29, 0x33, 0x55, 0x65] : List Byte).contains (fieldsOf w).nn
  simp [decodeCategoryF, apply_ite Option.isSome]

/-- The list of R96 in terms of the fields of R90. -/
theorem Word.known_eq (w : Word) : Word.known w =
    if (fieldsOf w).op = 0x0 then Word.knownInCategory0 w
    else if (fieldsOf w).op = 0x8 then Word.knownInCategory8 w
    else if (fieldsOf w).op = 0xE then Word.knownInCategoryE w
    else if (fieldsOf w).op = 0xF then Word.knownInCategoryF w
    else true := rfl

theorem isSome_selectInstr (w : Word) : (selectInstr (fieldsOf w)).isSome = Word.known w := by
  rw [Word.known_eq, ← isSome_decodeCategory0, ← isSome_decodeCategory8, ← isSome_decodeCategoryE,
    ← isSome_decodeCategoryF]
  rcases nibble_cases (fieldsOf w).op with h | h | h | h | h | h | h | h | h | h | h | h | h | h | h | h <;>
    simp [selectInstr, h]

/-- Settles O3: the decoder answers with what the fields select, which is something exactly for a known word. -/
theorem decoderRejectsExactlyTheUnknownWords : Obligations.DecoderRejectsExactlyTheUnknownWords := by
  unfold Obligations.DecoderRejectsExactlyTheUnknownWords
  intro w
  rw [← isSome_selectInstr, decodeWord]
  cases selectInstr (fieldsOf w) <;> simp

/-! ### Encoding what was decoded (R98, R101) -/

theorem wordXY_and_FFF0 (op : BitVec 4) (x y : Reg) (n : BitVec 4) : wordXY op x y n &&& 0xFFF0 = wordXY op x y 0 := by
  apply BitVec.eq_of_getLsbD_eq
  intro i hi
  have hm : ∀ i < 16, (0xFFF0 : Word).getLsbD i = decide (4 ≤ i) := by decide
  rw [BitVec.getLsbD_and, hm i hi, getLsbD_wordXY, getLsbD_wordXY]
  by_cases h4 : i < 4
  · simp [h4, show ¬ 4 ≤ i by omega]
  · simp [h4, show 4 ≤ i by omega]

/-! What a category's fields select encodes to those fields, in the category's shape (R92). -/

theorem encode_of_decodeCategory0 {f : Fields} {i : Instr} (h : decodeCategory0 f = some i) :
    encode i = wordA 0x0 f.nnn := by
  unfold decodeCategory0 at h
  split at h
  case isTrue hcls =>
    cases h
    rw [hcls]
    rfl
  case isFalse =>
    split at h <;> cases h
    case isTrue hret =>
      rw [hret]
      rfl

theorem encode_of_decodeCategory8 {f : Fields} {i : Instr} (h : decodeCategory8 f = some i) :
    encode i = wordXY 0x8 f.x f.y f.n := by
  unfold decodeCategory8 at h
  split at h <;> cases h <;> simp [encode, *]

theorem encode_of_decodeCategoryE {f : Fields} {i : Instr} (h : decodeCategoryE f = some i) :
    encode i = wordXI 0xE f.x f.nn := by
  unfold decodeCategoryE at h
  split at h
  · cases h
    simp [encode, *]
  · split at h <;> cases h
    simp [encode, *]

theorem encode_of_decodeCategoryF {f : Fields} {i : Instr} (h : decodeCategoryF f = some i) :
    encode i = wordXI 0xF f.x f.nn := by
  unfold decodeCategoryF at h
  repeat' split at h
  all_goals cases h
  all_goals simp [encode, *]

/-- Categories 5 and 9 lose their low nibble (R98); in every other category the fields make the word. -/
theorem encode_of_selectInstr {f : Fields} {i : Instr} (h : selectInstr f = some i) :
    if f.op = 0x5 ∨ f.op = 0x9 then encode i = wordXY f.op f.x f.y 0
    else encode i = wordA f.op f.nnn ∨ encode i = wordXI f.op f.x f.nn ∨ encode i = wordXY f.op f.x f.y f.n := by
  unfold selectInstr at h
  split at h
  case h_1 hop => simp [hop, encode_of_decodeCategory0 h]
  case h_9 hop => simp [hop, encode_of_decodeCategory8 h]
  case h_15 hop => simp [hop, encode_of_decodeCategoryE h]
  case h_16 =>
    have hop : f.op = 0xF := by
      have := nibble_cases f.op
      simp_all
    simp [hop, encode_of_decodeCategoryF h]
  all_goals
    cases h
    simp [encode, *]

theorem selectInstr_of_decodeWord {w : Word} {i : Instr} (h : decodeWord w = .ok i) :
    selectInstr (fieldsOf w) = some i := by
  unfold decodeWord at h
  split at h <;> cases h
  assumption

/-- Settles O4: the encoding is made of the decoded fields, and those make the word. -/
theorem encodeOfDecodeIsTheWord : Obligations.EncodeOfDecodeIsTheWord := by
  unfold Obligations.EncodeOfDecodeIsTheWord
  intro w i h
  have henc := encode_of_selectInstr (selectInstr_of_decodeWord h)
  constructor
  · intro hop
    rw [if_pos hop] at henc
    rw [henc, ← wordXY_and_FFF0, wordXY_fieldsOf]
  · intro hop
    rw [if_neg hop, wordA_fieldsOf, wordXI_fieldsOf, wordXY_fieldsOf] at henc
    simpa using henc

end Sys2Proof
end

section
/-! PROOFS. Memory: a read after a write (R72), and the canonical form is unique. -/

namespace Sys2Proof

/-- Settles O23: the write keeps the canonical form, and in that form it is read back. -/
theorem readAfterWrite : Obligations.ReadAfterWrite := by
  unfold Obligations.ReadAfterWrite
  exact fun m a a' b hm ha => ⟨Memory.wf_write b ha hm, Memory.read_write hm a a' b⟩

@[simp] theorem Memory.read_head (k : Nat) (b : Byte) (rest : Memory) : Memory.read ((k, b) :: rest) k = b := by
  simp [Memory.read]

/-- A canonical memory that reads like one with `k` listed starts no later than `k`: before its start it reads as
unlisted, and a listed byte never does. -/
theorem Memory.start_le_of_read_eq {lo lo' k : Nat} {b : Byte} {rest m : Memory}
    (hlisted : Memory.wfFrom lo ((k, b) :: rest) = true) (hm : Memory.wfFrom lo' m = true)
    (h : Memory.read ((k, b) :: rest) k = m.read k) : lo' ≤ k := by
  obtain ⟨-, -, hb, -⟩ := (Memory.wfFrom_cons _ _ _ _).mp hlisted
  by_contra hlt
  rw [Memory.read_head, Memory.read_of_lt hm (by omega)] at h
  exact hb h

/-- The tails of two memories with the same head read the same where the whole memories do. -/
theorem Memory.read_tail_eq {lo k : Nat} {b : Byte} {rest rest' : Memory}
    (hm : Memory.wfFrom lo ((k, b) :: rest) = true) (hm' : Memory.wfFrom lo ((k, b) :: rest') = true)
    (h : ∀ a, Memory.read ((k, b) :: rest) a = Memory.read ((k, b) :: rest') a) (a : Nat) :
    rest.read a = rest'.read a := by
  obtain ⟨-, -, -, htail⟩ := (Memory.wfFrom_cons _ _ _ _).mp hm
  obtain ⟨-, -, -, htail'⟩ := (Memory.wfFrom_cons _ _ _ _).mp hm'
  by_cases hk : k = a
  · rw [Memory.read_of_lt htail (by omega), Memory.read_of_lt htail' (by omega)]
  · simpa [Memory.read, hk] using h a

theorem Memory.eq_of_read_eq {lo : Nat} {m m' : Memory} (hm : Memory.wfFrom lo m = true)
    (hm' : Memory.wfFrom lo m' = true) (h : ∀ a, m.read a = m'.read a) : m = m' := by
  induction m generalizing lo m' with
  | nil =>
    cases m' with
    | nil => rfl
    | cons p' rest' =>
      have := Memory.start_le_of_read_eq (m := []) (lo' := p'.1 + 1) hm' rfl (h p'.1).symm
      omega
  | cons p rest ih =>
    obtain ⟨k, b⟩ := p
    cases m' with
    | nil =>
      have := Memory.start_le_of_read_eq (m := []) (lo' := k + 1) hm rfl (h k)
      omega
    | cons p' rest' =>
      obtain ⟨k', b'⟩ := p'
      obtain ⟨-, hk, hb, htail⟩ := (Memory.wfFrom_cons _ _ _ _).mp hm
      obtain ⟨-, hk', hb', htail'⟩ := (Memory.wfFrom_cons _ _ _ _).mp hm'
      have hle : k' ≤ k :=
        Memory.start_le_of_read_eq hm ((Memory.wfFrom_cons _ _ _ _).mpr ⟨le_rfl, hk', hb', htail'⟩) (h k)
      have hge : k ≤ k' :=
        Memory.start_le_of_read_eq hm' ((Memory.wfFrom_cons _ _ _ _).mpr ⟨le_rfl, hk, hb, htail⟩) (h k').symm
      obtain rfl : k = k' := le_antisymm hge hle
      obtain rfl : b = b' := by simpa using h k
      rw [ih htail htail' (Memory.read_tail_eq hm hm' h)]

/-- Settles O24: equal reads force equal first addresses, equal first bytes and equal tails. -/
theorem canonicalMemoriesWithEqualBytesAreEqual : Obligations.CanonicalMemoriesWithEqualBytesAreEqual := by
  unfold Obligations.CanonicalMemoriesWithEqualBytesAreEqual
  exact fun m m' hm hm' h => Memory.eq_of_read_eq hm hm' h

end Sys2Proof
end

section
/-! PROOFS. The parts of a frame by name, and the frames of the updates that instructions make. -/

namespace Sys2Proof.Machine

/-! ### The parts of a frame by name -/

section
variable {ps : List Part} {s t : State} (h : UnchangedExcept ps s t)
include h

theorem UnchangedExcept.reg {r : Reg} (hr : Part.reg r ∉ ps) : t.reg r = s.reg r := by
  obtain ⟨reg, -⟩ := h
  exact reg r hr

theorem UnchangedExcept.index (hp : Part.index ∉ ps) : t.i = s.i := by
  obtain ⟨-, index, -⟩ := h
  exact index hp

theorem UnchangedExcept.memory (hp : Part.memory ∉ ps) (a : Nat) : t.mem.read a = s.mem.read a := by
  obtain ⟨-, -, memory, -⟩ := h
  exact memory hp a

theorem UnchangedExcept.stack (hp : Part.stack ∉ ps) : t.stack = s.stack := by
  obtain ⟨-, -, -, stack, -⟩ := h
  exact stack hp

theorem UnchangedExcept.display (hp : Part.display ∉ ps) : t.display = s.display := by
  obtain ⟨-, -, -, -, display, -⟩ := h
  exact display hp

theorem UnchangedExcept.redraw (hp : Part.redraw ∉ ps) : t.redraw = s.redraw := by
  obtain ⟨-, -, -, -, -, redraw, -⟩ := h
  exact redraw hp

theorem UnchangedExcept.delay (hp : Part.delay ∉ ps) : t.dt = s.dt := by
  obtain ⟨-, -, -, -, -, -, delay, -⟩ := h
  exact delay hp

theorem UnchangedExcept.sound (hp : Part.sound ∉ ps) : t.st = s.st := by
  obtain ⟨-, -, -, -, -, -, -, sound, -⟩ := h
  exact sound hp

theorem UnchangedExcept.keys : t.keys = s.keys := by
  obtain ⟨-, -, -, -, -, -, -, -, keys, -⟩ := h
  exact keys

theorem UnchangedExcept.status : t.status = s.status := by
  obtain ⟨-, -, -, -, -, -, -, -, -, status, -⟩ := h
  exact status

theorem UnchangedExcept.env : t.env = s.env := by
  obtain ⟨-, -, -, -, -, -, -, -, -, -, env⟩ := h
  exact env

/-- A frame may name more parts than it must. -/
theorem UnchangedExcept.mono {qs : List Part} (hsub : ps ⊆ qs) : UnchangedExcept qs s t :=
  ⟨fun _ hr => h.reg (mt (@hsub _) hr), fun hp => h.index (mt (@hsub _) hp), fun hp => h.memory (mt (@hsub _) hp),
    fun hp => h.stack (mt (@hsub _) hp), fun hp => h.display (mt (@hsub _) hp), fun hp => h.redraw (mt (@hsub _) hp),
    fun hp => h.delay (mt (@hsub _) hp), fun hp => h.sound (mt (@hsub _) hp), h.keys, h.status, h.env⟩

end

/-! ### The frames of the updates -/

theorem setMem_unchangedExcept (s : State) (m : Memory) : UnchangedExcept [.memory] s (s.setMem m) := by
  simp [UnchangedExcept]

theorem setStack_unchangedExcept (s : State) (l : List Word) : UnchangedExcept [.stack] s (s.setStack l) := by
  simp [UnchangedExcept]

theorem withRegs_unchangedExcept (s : State) (bs : List Byte) :
    UnchangedExcept ((List.finRange 16).map .reg) s (s.withRegs bs) := by
  simp [UnchangedExcept]

@[simp] theorem skip_mem (s : State) (c : Bool) : (s.skip c).mem = s.mem := by
  rw [State.skip_eq, State.setPc_mem]

theorem writeBack_unchangedExcept (x : Reg) (res : Byte) (flag : Bool) (s : State) :
    UnchangedExcept [.reg x, .reg vf] s (writeBack x res flag s) := by
  unfold writeBack
  split
  · exact (setReg_unchangedExcept s vf _).mono (by simp)
  · exact (setReg_unchangedExcept s x res).trans (setReg_unchangedExcept _ vf _)

theorem draw_unchangedExcept (s : State) (x y : Reg) (rows : List Byte) :
    UnchangedExcept [.reg vf, .display, .redraw] s (s.draw x y rows) := by
  have h := ((setDisplay_unchangedExcept s
    (drawSprite s.display (originColumn (s.reg x)) (originRow (s.reg y)) rows).1).trans
    (setReg_unchangedExcept _ vf
      (flagByte (drawSprite s.display (originColumn (s.reg x)) (originRow (s.reg y)) rows).2))).trans
    (setRedraw_unchangedExcept _ true)
  exact h.mono (by simp)

end Sys2Proof.Machine
end

section
/-! PROOFS. What an instruction can do, said once: where it faults and with which reason (R128), and where it completes,
which parts of the state it may write. Each instruction that faults on some states has a lemma for either case. -/

namespace Sys2Proof.Machine

/-! ### The faults, and the completions where no fault is taken -/

theorem exec_ret_of_concat {s : State} {l : List Word} {a : Word} (h : s.stack = l ++ [a]) :
    exec .ret s = .next ((s.setStack l).setPc a) := by
  simp [exec, execRet_eq, h]

theorem haltsWith_ret {s : State} (h : s.stack = []) : HaltsWith .ret .stackUnderflow s := by
  simp [HaltsWith, exec, execRet_eq, h]

theorem exec_call_of_lt (nnn : BitVec 12) {s : State} (h : s.stack.length < 16) :
    exec (.call nnn) s = .next ((s.setStack (s.stack ++ [s.pc])).setPc (zext16 nnn)) := by
  simp [exec, execCall_eq, h]

theorem haltsWith_call (nnn : BitVec 12) {s : State} (h : 16 ≤ s.stack.length) :
    HaltsWith (.call nnn) .stackOverflow s := by
  simp [HaltsWith, exec, execCall_eq, show ¬ s.stack.length < 16 by omega]

theorem exec_drw_of_exists (x y : Reg) {n : BitVec 4} {s : State}
    (h : n.toNat = 0 ∨ s.i.toNat + (n.toNat - 1) ≤ 0xFFF) :
    exec (.drw x y n) s = .next (s.draw x y (s.mem.readBytes s.base n.toNat)) := by
  rw [exec, execDrw_eq, State.base, if_pos (by omega)]

theorem haltsWith_drw (x y : Reg) {n : BitVec 4} {s : State} (hn : 0 < n.toNat)
    (h : 0xFFF < s.i.toNat + (n.toNat - 1)) : HaltsWith (.drw x y n) .memoryOutOfBounds s := by
  rw [HaltsWith, exec, execDrw_eq, State.base, if_neg (by omega), raiseFault_eq]

theorem exec_bcd_of_le (x : Reg) {s : State} (h : s.i.toNat + 2 ≤ 0xFFF) :
    exec (.bcd x) s = .next (s.setMem (s.mem.writeBytes s.base (bcdDigits (s.reg x)))) := by
  rw [exec, execBcd_eq, State.base, if_pos (by omega)]

theorem haltsWith_bcd (x : Reg) {s : State} (h : 0xFFF < s.i.toNat + 2) : HaltsWith (.bcd x) .memoryOutOfBounds s := by
  rw [HaltsWith, exec, execBcd_eq, State.base, if_neg (by omega), raiseFault_eq]

theorem exec_storeRegs_of_le {x : Reg} {s : State} (h : s.i.toNat + x.val ≤ 0xFFF) :
    exec (.storeRegs x) s = .next ((s.setMem (s.mem.writeBytes s.base (s.regsUpTo x))).advanceI x) := by
  rw [exec, execStoreRegs_eq, State.base, if_pos (by omega)]

theorem haltsWith_storeRegs {x : Reg} {s : State} (h : 0xFFF < s.i.toNat + x.val) :
    HaltsWith (.storeRegs x) .memoryOutOfBounds s := by
  rw [HaltsWith, exec, execStoreRegs_eq, State.base, if_neg (by omega), raiseFault_eq]

theorem exec_loadRegs_of_le {x : Reg} {s : State} (h : s.i.toNat + x.val ≤ 0xFFF) :
    exec (.loadRegs x) s = .next ((s.withRegs (s.mem.readBytes s.base (x.val + 1))).advanceI x) := by
  rw [exec, execLoadRegs_eq, State.base, if_pos (by omega)]

theorem haltsWith_loadRegs {x : Reg} {s : State} (h : 0xFFF < s.i.toNat + x.val) :
    HaltsWith (.loadRegs x) .memoryOutOfBounds s := by
  rw [HaltsWith, exec, execLoadRegs_eq, State.base, if_neg (by omega), raiseFault_eq]

theorem exec_skp_of_key {x : Reg} {s : State} {k : Key} (h : (s.reg x).toNat = k.val) :
    exec (.skp x) s = .next (s.skip (s.keys[k] == true)) := by
  simp only [exec, execSkp, keyNamed_eq_some.mpr h]

theorem haltsWith_skp {x : Reg} {s : State} (h : 15 < (s.reg x).toNat) : HaltsWith (.skp x) .keyOutOfRange s := by
  simp only [HaltsWith, exec, execSkp, keyNamed_eq_none.mpr h, raiseFault_eq]

theorem exec_sknp_of_key {x : Reg} {s : State} {k : Key} (h : (s.reg x).toNat = k.val) :
    exec (.sknp x) s = .next (s.skip (s.keys[k] == false)) := by
  simp only [exec, execSknp, keyNamed_eq_some.mpr h]

theorem haltsWith_sknp {x : Reg} {s : State} (h : 15 < (s.reg x).toNat) : HaltsWith (.sknp x) .keyOutOfRange s := by
  simp only [HaltsWith, exec, execSknp, keyNamed_eq_none.mpr h, raiseFault_eq]

theorem exec_waitKey_of_some (x : Reg) {s : State} {k : Key} (h : firstKeyDown s.keys = some k) :
    exec (.waitKey x) s = .next (s.setReg x (keyByte k)) := by
  simp only [exec, execWaitKey, h]

theorem exec_waitKey_of_none (x : Reg) {s : State} (h : firstKeyDown s.keys = none) :
    exec (.waitKey x) s = .next s.rewind := by
  simp only [exec, execWaitKey, h]

/-! ### Every instruction -/

/-- The fault an instruction takes, if it takes one (R128, R280): what the checks of R143, R161, R163, R233 to R235 and
R262 answer. -/
def faultOf (i : Instr) (s : State) : Option HaltReason :=
  match i with
  | .ret => if s.stack = [] then some .stackUnderflow else none
  | .call _ => if 16 ≤ s.stack.length then some .stackOverflow else none
  | .drw _ _ n => if 0 < n.toNat ∧ 0xFFF < s.i.toNat + (n.toNat - 1) then some .memoryOutOfBounds else none
  | .bcd _ => if 0xFFF < s.i.toNat + 2 then some .memoryOutOfBounds else none
  | .storeRegs x | .loadRegs x => if 0xFFF < s.i.toNat + x.val then some .memoryOutOfBounds else none
  | .skp x | .sknp x => if 15 < (s.reg x).toNat then some .keyOutOfRange else none
  | _ => none

/-- The parts an instruction may write besides PC and, when it faults, the status. -/
def writes : Instr → List Part
  | .cls => [.display, .redraw]
  | .ret | .call _ => [.stack]
  | .jp _ | .jpV0 _ | .seByte _ _ | .sneByte _ _ | .seReg _ _ | .sneReg _ _ | .skp _ | .sknp _ => []
  | .ldByte x _ | .addByte x _ | .ldReg x _ | .rnd x _ | .readDelay x | .waitKey x => [.reg x]
  | .or x _ | .and x _ | .xor x _ | .addReg x _ | .sub x _ | .shr x _ | .subn x _ | .shl x _ => [.reg x, .reg vf]
  | .ldI _ | .glyph _ => [.index]
  | .addI _ => [.index, .reg vf]
  | .drw _ _ _ => [.reg vf, .display, .redraw]
  | .bcd _ => [.memory]
  | .storeRegs _ => [.memory, .index]
  | .loadRegs _ => .index :: (List.finRange 16).map .reg
  | .setDelay _ => [.delay]
  | .setSound _ => [.sound]

/-- What an instruction that completes leaves alone: everything outside its frame, and memory it does not write is the
same data, not only the same bytes. -/
def Keeps (i : Instr) (s t : State) : Prop :=
  UnchangedExcept (writes i) s t ∧ (Part.memory ∉ writes i → t.mem = s.mem)

/-- An instruction completes from `s`, within its frame. -/
def Completes (i : Instr) (s : State) : Prop := ∃ t, exec i s = .next t ∧ Keeps i s t

/-- An instruction takes the fault that `faultOf` names, or completes where it names none (R127, R130). -/
theorem exec_cases (i : Instr) (s : State) :
    (∃ r, faultOf i s = some r ∧ HaltsWith i r s) ∨ (faultOf i s = none ∧ Completes i s) := by
  cases i
  case cls =>
    exact .inr ⟨rfl, _, rfl, (setDisplay_unchangedExcept s _).trans (setRedraw_unchangedExcept _ true), fun _ => rfl⟩
  case jp | jpV0 => exact .inr ⟨rfl, _, rfl, setPc_unchangedExcept s _, fun _ => rfl⟩
  case seByte | sneByte | seReg | sneReg => exact .inr ⟨rfl, _, rfl, skip_unchangedExcept s _, fun _ => skip_mem s _⟩
  case ldByte | addByte | ldReg | rnd | readDelay =>
    exact .inr ⟨rfl, _, rfl, setReg_unchangedExcept s _ _, fun _ => rfl⟩
  case or | and | xor | addReg | sub | shr | subn | shl =>
    exact .inr ⟨rfl, _, rfl, writeBack_unchangedExcept _ _ _ s, fun _ => writeBack_mem s _ _ _⟩
  case ldI | glyph => exact .inr ⟨rfl, _, rfl, setI_unchangedExcept s _, fun _ => rfl⟩
  case addI =>
    exact .inr ⟨rfl, _, rfl, (setI_unchangedExcept s _).trans (setReg_unchangedExcept _ vf _), fun _ => rfl⟩
  case setDelay => exact .inr ⟨rfl, _, rfl, setDt_unchangedExcept s _, fun _ => rfl⟩
  case setSound => exact .inr ⟨rfl, _, rfl, setSt_unchangedExcept s _, fun _ => rfl⟩
  case waitKey x =>
    refine .inr ⟨rfl, ?_⟩
    cases h : firstKeyDown s.keys
    case none => exact ⟨_, exec_waitKey_of_none x h, (setPc_unchangedExcept s _).mono (by simp), fun _ => rfl⟩
    case some k => exact ⟨_, exec_waitKey_of_some x h, setReg_unchangedExcept s x _, fun _ => rfl⟩
  case ret =>
    rcases List.eq_nil_or_concat' s.stack with h | ⟨l, a, h⟩
    · exact .inl ⟨_, by simp [faultOf, h], haltsWith_ret h⟩
    · exact .inr ⟨by simp [faultOf, h], _, exec_ret_of_concat h,
        (setStack_unchangedExcept s l).trans (setPc_unchangedExcept _ a), fun _ => rfl⟩
  case call nnn =>
    by_cases h : 16 ≤ s.stack.length
    · exact .inl ⟨_, if_pos h, haltsWith_call nnn h⟩
    · exact .inr ⟨if_neg h, _, exec_call_of_lt nnn (by omega),
        (setStack_unchangedExcept s _).trans (setPc_unchangedExcept _ _), fun _ => rfl⟩
  case drw x y n =>
    by_cases h : 0 < n.toNat ∧ 0xFFF < s.i.toNat + (n.toNat - 1)
    · exact .inl ⟨_, if_pos h, haltsWith_drw x y h.1 h.2⟩
    · exact .inr ⟨if_neg h, _, exec_drw_of_exists x y (by omega), draw_unchangedExcept s x y _, fun _ => rfl⟩
  case bcd x =>
    by_cases h : 0xFFF < s.i.toNat + 2
    · exact .inl ⟨_, if_pos h, haltsWith_bcd x h⟩
    · exact .inr ⟨if_neg h, _, exec_bcd_of_le x (by omega), setMem_unchangedExcept s _, by simp [writes]⟩
  case storeRegs x =>
    by_cases h : 0xFFF < s.i.toNat + x.val
    · exact .inl ⟨_, if_pos h, haltsWith_storeRegs h⟩
    · exact .inr ⟨if_neg h, _, exec_storeRegs_of_le (by omega),
        (setMem_unchangedExcept s _).trans (setI_unchangedExcept _ _), by simp [writes]⟩
  case loadRegs x =>
    by_cases h : 0xFFF < s.i.toNat + x.val
    · exact .inl ⟨_, if_pos h, haltsWith_loadRegs h⟩
    · exact .inr ⟨if_neg h, _, exec_loadRegs_of_le (by omega),
        ((withRegs_unchangedExcept s _).trans (setI_unchangedExcept _ _)).mono (by simp [writes]), fun _ => rfl⟩
  case skp x =>
    by_cases h : 15 < (s.reg x).toNat
    · exact .inl ⟨_, if_pos h, haltsWith_skp h⟩
    · exact .inr ⟨if_neg h, _, exec_skp_of_key (k := ⟨(s.reg x).toNat, by omega⟩) rfl, skip_unchangedExcept s _,
        fun _ => skip_mem s _⟩
  case sknp x =>
    by_cases h : 15 < (s.reg x).toNat
    · exact .inl ⟨_, if_pos h, haltsWith_sknp h⟩
    · exact .inr ⟨if_neg h, _, exec_sknp_of_key (k := ⟨(s.reg x).toNat, by omega⟩) rfl, skip_unchangedExcept s _,
        fun _ => skip_mem s _⟩

theorem HaltsWith.eq_of_next {i : Instr} {r : HaltReason} {s t : State} (hhalt : HaltsWith i r s)
    (h : exec i s = .next t) : t = { s with pc := s.pc - 2, status := .halted r } :=
  Host.Outcome.next.inj (h.symm.trans hhalt)

/-- The next state of an instruction: the tick undone with the reason of its fault, or a state within its frame. -/
theorem next_cases {i : Instr} {s t : State} (h : exec i s = .next t) :
    (∃ r, faultOf i s = some r ∧ t = { s with pc := s.pc - 2, status := .halted r }) ∨
      (faultOf i s = none ∧ Keeps i s t) := by
  rcases exec_cases i s with ⟨r, hr, hhalt⟩ | ⟨hnone, u, hu, hkeeps⟩
  · exact .inl ⟨r, hr, hhalt.eq_of_next h⟩
  · obtain rfl : u = t := Host.Outcome.next.inj (hu.symm.trans h)
    exact .inr ⟨hnone, hkeeps⟩

/-- Faulting or not, an instruction stays within its frame but for the status. -/
theorem exec_frame {i : Instr} {s t : State} (h : exec i s = .next t) :
    UnchangedExcept (writes i) s (t.setStatus s.status) := by
  rcases next_cases h with ⟨r, -, rfl⟩ | ⟨-, hframe, -⟩
  · exact (setPc_unchangedExcept s (s.pc - 2)).mono (by simp)
  · rw [← hframe.status]
    exact hframe

theorem exec_mem {i : Instr} {s t : State} (h : exec i s = .next t) (hi : Part.memory ∉ writes i) : t.mem = s.mem := by
  rcases next_cases h with ⟨r, -, rfl⟩ | ⟨-, -, hmem⟩
  · rfl
  · exact hmem hi

/-- Settles O10: a fault is undone and halted, and a completed instruction's frame keeps the status. -/
theorem everyInstructionEndsInANextState : Obligations.EveryInstructionEndsInANextState := by
  unfold Obligations.EveryInstructionEndsInANextState
  intro i s
  rcases exec_cases i s with ⟨r, -, hhalt⟩ | ⟨-, t, ht, hframe, -⟩
  · exact ⟨_, hhalt, .inr ⟨r, hhalt⟩⟩
  · exact ⟨t, ht, .inl hframe.status⟩

/-! ### The reasons of the faults -/

theorem status_eq_halted_iff {i : Instr} {s t : State} {r : HaltReason} (hs : s.status = .running)
    (h : exec i s = .next t) : t.status = .halted r ↔ faultOf i s = some r := by
  rcases next_cases h with ⟨r', hr', rfl⟩ | ⟨hnone, hframe, -⟩
  · simp [hr']
  · simp [hnone, hframe.status, hs]

theorem faultOf_eq_some {i : Instr} {s : State} {r : HaltReason} : faultOf i s = some r ↔
    (r = .stackUnderflow ∧ i = .ret ∧ s.stack = []) ∨
    (r = .stackOverflow ∧ (∃ nnn, i = .call nnn) ∧ 16 ≤ s.stack.length) ∨
    (r = .memoryOutOfBounds ∧
      ((∃ x y n, i = .drw x y n ∧ 0 < n.toNat ∧ 0xFFF < s.i.toNat + (n.toNat - 1)) ∨
       (∃ x, i = .bcd x ∧ 0xFFF < s.i.toNat + 2) ∨
       (∃ x, (i = .storeRegs x ∨ i = .loadRegs x) ∧ 0xFFF < s.i.toNat + x.val))) ∨
    (r = .keyOutOfRange ∧ ∃ x, (i = .skp x ∨ i = .sknp x) ∧ 15 < (s.reg x).toNat) := by
  cases i <;> simp [faultOf, and_comm, eq_comm]

/-- Settles O11: the status is the reason that `faultOf` gives, instruction by instruction. -/
theorem haltReasonsOfInstructions : Obligations.HaltReasonsOfInstructions := by
  unfold Obligations.HaltReasonsOfInstructions
  exact fun i s t r hs h => (status_eq_halted_iff hs h).trans faultOf_eq_some

/-- Settles O35: the block read of Dxyn finds a byte that does not exist. -/
theorem drawOutsideMemoryHalts : Obligations.DrawOutsideMemoryHalts := by
  unfold Obligations.DrawOutsideMemoryHalts
  exact fun s x y n hn h => haltsWith_drw x y hn h

/-- Settles O56: each of the three block accesses finds a byte that does not exist. -/
theorem blockAccessOutsideMemoryHalts : Obligations.BlockAccessOutsideMemoryHalts := by
  unfold Obligations.BlockAccessOutsideMemoryHalts
  exact fun s x => ⟨haltsWith_bcd x, fun h => ⟨haltsWith_storeRegs h, haltsWith_loadRegs h⟩⟩

/-- Settles O58: VX names no key. -/
theorem keyOutOfRangeHalts : Obligations.KeyOutOfRangeHalts := by
  unfold Obligations.KeyOutOfRangeHalts
  exact fun s x h => ⟨haltsWith_skp h, haltsWith_sknp h⟩

end Sys2Proof.Machine
end

section
/-! PROOFS. The tick (R120 to R129) and the scheduled event (R296): each way a tick can go. -/

namespace Sys2Proof.Machine

/-- With an event scheduled a step is that event, taken off the schedule. -/
theorem step_of_cons {s : State} {e : Event} {rest : List Event} (h : s.env.schedule = e :: rest) :
    step s = applyEvent e { s with env := { s.env with schedule := rest } } := by
  simp only [step, runNext, State.nextEvent, State.dropEvent, State.setEnv, h, List.tail_cons]

/-- Settles O32: the head of the schedule is the next event. -/
theorem scheduledEventIsApplied : Obligations.ScheduledEventIsApplied := by
  unfold Obligations.ScheduledEventIsApplied
  exact fun s e rest h => step_of_cons h

theorem applyEvent_tick (rand : Byte) (s : State) : applyEvent (.tick rand) s = tick rand s := rfl

/-- Settles O5: with nothing scheduled the Tick takes a free byte, with a Tick scheduled it takes that one's. -/
theorem stepRunsTheDecodedInstruction : Obligations.StepRunsTheDecodedInstruction := by
  unfold Obligations.StepRunsTheDecodedInstruction
  intro s i hs hpc hd
  constructor
  · intro hnil
    exact (step_of_nil hnil).trans (tick_of_decode _ hs hpc hd)
  · intro rand rest hcons
    exact (step_of_cons hcons).trans
      (tick_of_decode (s := { s with env := { s.env with schedule := rest } }) rand hs hpc hd)

/-- Settles O6: the fetch finds no two bytes, and the halt comes before the advance. -/
theorem fetchOutsideMemoryHalts : Obligations.FetchOutsideMemoryHalts := by
  unfold Obligations.FetchOutsideMemoryHalts
  exact fun s rand hs hpc => ⟨_, tick_of_gt rand hs hpc, rfl, rfl⟩

/-- Settles O7: the decoder rejects every word of R96's list. -/
theorem unknownWordHalts : Obligations.UnknownWordHalts := by
  unfold Obligations.UnknownWordHalts
  intro s rand hs hpc hunknown
  have hd := (decoderRejectsExactlyTheUnknownWords _).2.mp hunknown
  exact ⟨_, tick_of_unknown rand hs hpc hd, rfl, rfl⟩

/-- Settles O8: the step is a Tick either way, and in Halted a Tick does nothing. -/
theorem haltedTickChangesNothing : Obligations.HaltedTickChangesNothing := by
  unfold Obligations.HaltedTickChangesNothing
  intro s r hs
  constructor
  · intro hnil
    exact (step_of_nil hnil).trans (tick_of_halted hs _)
  · intro rand rest hcons
    exact (step_of_cons hcons).trans (tick_of_halted (s := { s with env := { s.env with schedule := rest } }) hs rand)

/-- A tick in Running halts at the fetch or at the decode, PC kept, or executes an instruction. -/
theorem tick_running_cases {s t : State} {rand : Byte} (hs : s.status = .running) (h : tick rand s = .next t) :
    (∃ r, t = (s.beginTick rand).halt r) ∨ ∃ i, exec i (s.beginTick rand).advance = .next t := by
  by_cases hpc : s.pc.toNat + 1 ≤ 0xFFF
  · cases hd : decodeWord (wordOfBytes (s.mem.read s.pc.toNat) (s.mem.read (s.pc.toNat + 1)))
    case error e =>
      rw [tick_of_unknown rand hs hpc hd] at h
      exact .inl ⟨_, (Host.Outcome.next.inj h).symm⟩
    case ok i =>
      rw [tick_of_decode rand hs hpc hd] at h
      exact .inr ⟨i, h⟩
  · rw [tick_of_gt rand hs (by omega)] at h
    exact .inl ⟨_, (Host.Outcome.next.inj h).symm⟩

/-- A tick in Halted does nothing, one in Running halts with PC kept or executes an instruction. -/
theorem tick_cases {s t : State} {rand : Byte} (h : tick rand s = .next t) :
    ((∃ r, s.status = .halted r) ∧ t = s) ∨ (∃ r, t = (s.beginTick rand).halt r) ∨
      ∃ i, exec i (s.beginTick rand).advance = .next t := by
  cases hs : s.status
  case running => exact .inr (tick_running_cases hs h)
  case halted r =>
    rw [tick_of_halted hs] at h
    exact .inl ⟨⟨r, rfl⟩, (Host.Outcome.next.inj h).symm⟩

theorem exec_env {i : Instr} {s t : State} (h : exec i s = .next t) : t.env = s.env := (exec_frame h).env

/-- A tick in Running changes of the model's own `env` what `beginTick` changes. -/
theorem tick_running_env {s t : State} {rand : Byte} (hs : s.status = .running) (h : tick rand s = .next t) :
    t.env = (s.beginTick rand).env := by
  rcases tick_running_cases hs h with ⟨r, rfl⟩ | ⟨i, hi⟩
  · rfl
  · exact (exec_env hi).trans rfl

/-- Settles O9: a halt before Execute keeps PC, and a fault within it undoes the advance; an instruction that completes
keeps Running. -/
theorem faultingTickIsUndone : Obligations.FaultingTickIsUndone := by
  unfold Obligations.FaultingTickIsUndone
  intro s t rand r hs h hr
  rw [applyEvent_tick] at h
  have henv := tick_running_env hs h
  refine ⟨?_, by simp [henv], by simp [henv]⟩
  rcases tick_running_cases hs h with ⟨r', rfl⟩ | ⟨i, hi⟩
  · rw [← hr]
    rfl
  · rcases next_cases hi with ⟨r', -, rfl⟩ | ⟨-, hframe, -⟩
    · rw [← hr]
      simp
    · have hrun : t.status = .running := hframe.status.trans hs
      rw [hrun] at hr
      cases hr

end Sys2Proof.Machine
end

section
/-! PROOFS. The host's events (R290 to R293, R320 to R326): TimerTick, Reset and Load, and what no event changes. -/

namespace Sys2Proof

/-! ### Memory written in one go -/

/-- Writing what addresses read as anyway lists nothing. -/
theorem Memory.writeBytes_nil_of_unlisted {a : Nat} {bs : List Byte}
    (h : ∀ k (hk : k < bs.length), bs[k] = Memory.unlisted (a + k)) : Memory.writeBytes [] a bs = [] := by
  induction bs generalizing a with
  | nil => rfl
  | cons b bs ih =>
    have hb : Memory.write [] a b = [] := if_pos (h 0 (by simp))
    rw [Memory.writeBytes, hb]
    refine ih fun k hk => ?_
    have hk' := h (k + 1) (Nat.succ_lt_succ hk)
    rwa [List.getElem_cons_succ, show a + (k + 1) = a + 1 + k by omega] at hk'

namespace Machine

@[simp] theorem length_font (p : Params) : p.font.toList.length = 80 := p.font.length_toList

theorem wf_resetMemory {p : Params} (h : p.init.mem.wf = true) : (resetMemory p).wf = true :=
  Memory.wf_writeBytes h (by simp)

/-- FONT stands at 0x050 to 0x09F after Reset (R66). -/
theorem read_resetMemory_font {p : Params} (h : p.init.mem.wf = true) (k : Fin 80) :
    (resetMemory p).read (0x050 + k.val) = p.font[k] := by
  rw [resetMemory, Memory.read_writeBytes_inside h (by simp) k.val (by simp)]
  simp

theorem read_resetMemory_outside (p : Params) {a : Nat} (h : ¬ (0x050 ≤ a ∧ a < 0x0A0)) :
    (resetMemory p).read a = p.init.mem.read a :=
  Memory.read_writeBytes_outside (by simp only [length_font]; omega)

/-- With the default parameters Reset writes the font that memory reads as there anyway (log 8). -/
theorem resetMemory_paramsDefault : resetMemory paramsDefault = [] := by
  refine Memory.writeBytes_nil_of_unlisted fun k hk => ?_
  have hin : 0x050 ≤ 0x050 + k ∧ 0x050 + k < 0x0A0 := by
    rw [length_font] at hk
    omega
  simp [paramsDefault, fontDefault, Memory.unlisted, hin]

/-- Settles O26: the fields are copied, and the font lies over INIT.M. -/
theorem resetConstructsTheUnit : Obligations.ResetConstructsTheUnit := by
  unfold Obligations.ResetConstructsTheUnit
  rintro s ⟨-, -, hinit⟩
  exact ⟨s.construct, rfl, rfl, rfl, rfl, read_resetMemory_font hinit, fun a ha => read_resetMemory_outside _ ha,
    rfl, rfl, rfl, rfl, rfl, rfl, rfl⟩

/-- Settles O27: the fields of INIT's default are those of the reset state, and its memory lists nothing. -/
theorem resetStateIsTheDefaultUnit : Obligations.ResetStateIsTheDefaultUnit := by
  unfold Obligations.ResetStateIsTheDefaultUnit
  refine ⟨rfl, rfl, rfl, fun s hs => ?_⟩
  simp only [State.construct, hs, resetMemory_paramsDefault]
  rfl

/-- Settles O13: both memories and the stack are empty. -/
theorem resetMeetsTheInvariant : Obligations.ResetMeetsTheInvariant := by
  unfold Obligations.ResetMeetsTheInvariant
  exact ⟨rfl, Nat.zero_le 16, rfl⟩

/-! ### Load -/

theorem applyEvent_load_of_loadable {s : State} (h : s.env.loadable = true) (bytes : List Byte) (size : Nat) :
    applyEvent (.load bytes size) s = .next (s.load bytes size) := by
  simp only [applyEvent, h, if_true]

theorem applyEvent_load_of_not_loadable {s : State} (h : s.env.loadable = false) (bytes : List Byte) (size : Nat) :
    applyEvent (.load bytes size) s = .refused .loadNotAllowed := by
  simp only [applyEvent, h, Bool.false_eq_true, if_false]

theorem eq_load_of_next {bytes : List Byte} {size : Nat} {s t : State}
    (h : applyEvent (.load bytes size) s = .next t) : t = s.load bytes size := by
  cases hload : s.env.loadable
  case false =>
    rw [applyEvent_load_of_not_loadable hload] at h
    cases h
  case true =>
    rw [applyEvent_load_of_loadable hload] at h
    exact (Host.Outcome.next.inj h).symm

theorem loadResult_of_gt {size : Nat} (h : 3584 < size) (bytes : List Byte) :
    loadResult bytes size = .romTooLarge := by
  simp [loadResult, Image.fits, h]

theorem loadResult_of_short {bytes : List Byte} {size : Nat} (hfit : size ≤ 3584) (h : bytes.length < size) :
    loadResult bytes size = .romReadShort := by
  simp [loadResult, Image.fits, Image.complete, hfit, h]

theorem loadResult_of_le {bytes : List Byte} {size : Nat} (hfit : size ≤ 3584) (h : size ≤ bytes.length) :
    loadResult bytes size = .ok := by
  simp [loadResult, Image.fits, Image.complete, hfit, h]

/-- Memory after a Load is as it was, or the whole image stands at 0x200 (R324, R325). -/
theorem loadMemory_cases (m : Memory) (bytes : List Byte) (size : Nat) :
    loadMemory m bytes size = m ∨
      (size ≤ 3584 ∧ loadMemory m bytes size = m.writeBytes 0x200 (bytes.take size)) := by
  by_cases hfit : size ≤ 3584
  · by_cases hshort : bytes.length < size
    · simp [loadMemory, loadResult_of_short hfit hshort]
    · exact .inr ⟨hfit, by simp [loadMemory, loadResult_of_le hfit (Nat.le_of_not_lt hshort)]⟩
  · simp [loadMemory, loadResult_of_gt (size := size) (by omega)]

theorem wf_loadMemory {m : Memory} (h : m.wf = true) (bytes : List Byte) (size : Nat) :
    (loadMemory m bytes size).wf = true := by
  rcases loadMemory_cases m bytes size with heq | ⟨hfit, heq⟩
  · rw [heq, h]
  · rw [heq]
    exact Memory.wf_writeBytes h (by simp; omega)

/-- Settles O28: the image is written in one go, within the address space. -/
theorem loadPlacesTheImage : Obligations.LoadPlacesTheImage := by
  unfold Obligations.LoadPlacesTheImage
  rintro s bytes size ⟨hwf, -, -⟩ hload hfit hlen
  have hok := loadResult_of_le hfit hlen
  have hmem : loadMemory s.mem bytes size = s.mem.writeBytes 0x200 (bytes.take size) := by simp [loadMemory, hok]
  have hsize : (bytes.take size).length = size := List.length_take_of_le hlen
  refine ⟨_, applyEvent_load_of_loadable hload bytes size, by simp [State.load, hok], fun k h hk => ?_, fun a ha => ?_,
    rfl, ?_⟩
  · rw [State.load, State.setEnv_mem, State.setMem_mem, hmem,
      Memory.read_writeBytes_inside hwf (by omega) k (by omega), List.getElem_take]
  · rw [State.load, State.setEnv_mem, State.setMem_mem, hmem, Memory.read_writeBytes_outside (by omega)]
  · simp [UnchangedExcept, State.load, State.reg]

/-- Settles O29: either check alone decides the report, and memory is written for neither. -/
theorem failedLoadWritesNothing : Obligations.FailedLoadWritesNothing := by
  unfold Obligations.FailedLoadWritesNothing
  intro s bytes size hload
  rw [applyEvent_load_of_loadable hload]
  constructor
  · intro hgt
    simp [State.load, loadMemory, loadResult_of_gt hgt, State.setMem, State.setEnv]
  · intro hfit hshort
    simp [State.load, loadMemory, loadResult_of_short hfit hshort, State.setMem, State.setEnv]

/-- Settles O30: a Load uses its permission up, a Tick in Running ends it, Reset gives it back. -/
theorem loadIsRefusedOutOfOrder : Obligations.LoadIsRefusedOutOfOrder := by
  unfold Obligations.LoadIsRefusedOutOfOrder
  refine ⟨fun s bytes size h => applyEvent_load_of_not_loadable h bytes size, fun s t bytes size h => ?_,
    fun s t rand hs h => ?_, fun s t h => ?_⟩
  · rw [eq_load_of_next h]
    rfl
  · rw [tick_running_env hs h]
    rfl
  · cases h
    rfl

/-! ### The other events -/

theorem countDown_toNat (b : Byte) : (countDown b).toNat = b.toNat - 1 := by
  rw [countDown, BitVec.toNat_ofNat, Nat.mod_eq_of_lt (by omega)]

/-- Settles O31: each timer is one write. -/
theorem timerTickCountsDown : Obligations.TimerTickCountsDown := by
  unfold Obligations.TimerTickCountsDown
  exact fun s => ⟨s.timerTick, rfl, countDown_toNat s.dt, countDown_toNat s.st, rfl,
    (setDt_unchangedExcept s _).trans (setSt_unchangedExcept _ _)⟩

/-- The host's events but Reset and Tick change neither the display nor the stack nor the status (R31, R32, R286). -/
theorem applyEvent_host_frame {e : Event} {s t : State} (hreset : e ≠ .reset) (htick : ∀ rand, e ≠ .tick rand)
    (h : applyEvent e s = .next t) : t.display = s.display ∧ t.stack = s.stack ∧ t.status = s.status := by
  cases e
  case tick rand => exact absurd rfl (htick rand)
  case reset => exact absurd rfl hreset
  case timerTick | keyDown | keyUp | redrawAck =>
    cases h
    exact ⟨rfl, rfl, rfl⟩
  case load bytes size =>
    rw [eq_load_of_next h]
    exact ⟨rfl, rfl, rfl⟩

theorem applyEvent_params {e : Event} {s t : State} (h : applyEvent e s = .next t) :
    t.env.params = s.env.params := by
  cases e
  case tick rand =>
    rcases tick_cases h with ⟨-, rfl⟩ | ⟨r, rfl⟩ | ⟨i, hi⟩
    · rfl
    · rfl
    · rw [exec_env hi]
      rfl
  case timerTick | keyDown | keyUp | redrawAck | reset =>
    cases h
    rfl
  case load bytes size =>
    rw [eq_load_of_next h]
    rfl

/-- Settles O21: taking an event off the schedule keeps the parameters, and so does every event. -/
theorem parametersNeverChange : Obligations.ParametersNeverChange := by
  unfold Obligations.ParametersNeverChange
  intro s t h
  exact applyEvent_params (s := s.dropEvent) h

/-- From Halted an event keeps the status, unless it is Reset (R129, R286). -/
theorem applyEvent_status_of_halted {e : Event} {s t : State} {r : HaltReason} (hs : s.status = .halted r)
    (hreset : e ≠ .reset) (h : applyEvent e s = .next t) : t.status = s.status := by
  by_cases htick : ∃ rand, e = .tick rand
  · obtain ⟨rand, rfl⟩ := htick
    rw [applyEvent_tick, tick_of_halted hs] at h
    cases h
    rfl
  · exact (applyEvent_host_frame hreset (fun rand he => htick ⟨rand, he⟩) h).2.2

/-- Settles O22: with nothing scheduled the step is a Tick in Halted, else the scheduled event decides. -/
theorem onlyResetLeavesHalted : Obligations.OnlyResetLeavesHalted := by
  unfold Obligations.OnlyResetLeavesHalted
  intro s t r hs h
  cases hsch : s.env.schedule
  case nil =>
    rw [step_of_nil hsch, tick_of_halted hs] at h
    cases h
    exact .inl rfl
  case cons e rest =>
    rw [step_of_cons hsch] at h
    by_cases he : e = .reset
    · subst he
      cases h
      exact .inr ⟨rfl, rest, rfl⟩
    · exact .inl (applyEvent_status_of_halted (s := { s with env := { s.env with schedule := rest } }) hs he h)

end Machine
end Sys2Proof
end

section
/-! PROOFS. The whole-machine rules of spec/10_state.md: which instructions write a part of the state. -/

namespace Sys2Proof.Machine

/-! ### The instructions whose frame names a part -/

theorem stack_mem_writes {i : Instr} : Part.stack ∈ writes i ↔ i = .ret ∨ ∃ nnn, i = .call nnn := by
  cases i <;> simp [writes]

theorem display_mem_writes {i : Instr} : Part.display ∈ writes i ↔ i = .cls ∨ ∃ x y n, i = .drw x y n := by
  cases i <;> simp [writes]

theorem redraw_mem_writes {i : Instr} : Part.redraw ∈ writes i ↔ i = .cls ∨ ∃ x y n, i = .drw x y n := by
  cases i <;> simp [writes]

theorem memory_mem_writes {i : Instr} : Part.memory ∈ writes i ↔ ∃ x, i = .bcd x ∨ i = .storeRegs x := by
  cases i <;> simp [writes]

theorem delay_mem_writes {i : Instr} : Part.delay ∈ writes i ↔ ∃ x, i = .setDelay x := by
  cases i <;> simp [writes]

theorem sound_mem_writes {i : Instr} : Part.sound ∈ writes i ↔ ∃ x, i = .setSound x := by
  cases i <;> simp [writes]

/-! ### The display and RD -/

theorem drw_next_cases {x y : Reg} {n : BitVec 4} {s t : State} (h : exec (.drw x y n) s = .next t) :
    t = { s with pc := s.pc - 2, status := .halted .memoryOutOfBounds } ∨
      t = s.draw x y (s.mem.readBytes s.base n.toNat) := by
  by_cases hb : n.toNat = 0 ∨ s.i.toNat + (n.toNat - 1) ≤ 0xFFF
  · rw [exec_drw_of_exists x y hb] at h
    exact .inr (Host.Outcome.next.inj h).symm
  · exact .inl ((haltsWith_drw x y (by omega) (by omega)).eq_of_next h)

theorem exec_redraw_of_not_mem {i : Instr} {s t : State} (hcls : i ≠ .cls) (hdrw : ∀ x y n, i ≠ .drw x y n)
    (h : exec i s = .next t) : t.redraw = s.redraw :=
  (exec_frame h).redraw (by simp [redraw_mem_writes, hcls, hdrw])

theorem exec_keeps_redraw_set {i : Instr} {s t : State} (h : exec i s = .next t) (hs : s.redraw = true) :
    t.redraw = true := by
  by_cases hw : Part.redraw ∈ writes i
  · rcases redraw_mem_writes.mp hw with rfl | ⟨x, y, n, rfl⟩
    · cases h
      rfl
    · rcases drw_next_cases h with rfl | rfl
      · exact hs
      · rfl
  · exact ((exec_frame h).redraw hw).trans hs

/-- Settles O15: RD is in the frames of 00E0 and Dxyn only, and both set it where they complete. -/
theorem redrawFlagIsSetByClearAndDraw : Obligations.RedrawFlagIsSetByClearAndDraw := by
  unfold Obligations.RedrawFlagIsSetByClearAndDraw
  refine ⟨fun s t h => ?_, fun s t x y n _ h hrun => ?_, fun i s t h hs => exec_keeps_redraw_set h hs,
    fun i s t hcls hdrw h => exec_redraw_of_not_mem hcls hdrw h, fun s => rfl⟩
  · cases h
    rfl
  · rcases drw_next_cases h with rfl | rfl
    · cases hrun
    · rfl

/-- Settles O16: the display is in the frames of 00E0 and Dxyn only, and the host's events leave it. -/
theorem displayChangesByClearDrawAndReset : Obligations.DisplayChangesByClearDrawAndReset := by
  unfold Obligations.DisplayChangesByClearDrawAndReset
  exact ⟨fun i s t hcls hdrw h => (exec_frame h).display (by simp [display_mem_writes, hcls, hdrw]),
    fun e s t hreset htick h => (applyEvent_host_frame hreset htick h).1⟩

/-! ### Memory -/

/-- What Fx33 makes of memory where it does not fault; a fault leaves it. -/
theorem bcd_mem_cases {x : Reg} {s t : State} (h : exec (.bcd x) s = .next t) :
    t.mem = s.mem ∨ (s.i.toNat + 2 ≤ 0xFFF ∧ t.mem = s.mem.writeBytes s.base (bcdDigits (s.reg x))) := by
  by_cases hb : s.i.toNat + 2 ≤ 0xFFF
  · rw [exec_bcd_of_le x hb] at h
    cases h
    exact .inr ⟨hb, rfl⟩
  · rw [(haltsWith_bcd x (by omega)).eq_of_next h]
    exact .inl rfl

/-- What Fx55 makes of memory where it does not fault; a fault leaves it. -/
theorem storeRegs_mem_cases {x : Reg} {s t : State} (h : exec (.storeRegs x) s = .next t) :
    t.mem = s.mem ∨ (s.i.toNat + x.val ≤ 0xFFF ∧ t.mem = s.mem.writeBytes s.base (s.regsUpTo x)) := by
  by_cases hb : s.i.toNat + x.val ≤ 0xFFF
  · rw [exec_storeRegs_of_le hb] at h
    cases h
    exact .inr ⟨hb, rfl⟩
  · rw [(haltsWith_storeRegs (by omega)).eq_of_next h]
    exact .inl rfl

/-- Settles O18: memory is in the frames of Fx33 and Fx55 only, which write consecutive bytes. -/
theorem memoryIsWrittenByStoresOnly : Obligations.MemoryIsWrittenByStoresOnly := by
  unfold Obligations.MemoryIsWrittenByStoresOnly
  rintro i s t a h ⟨hbcd, hstore⟩
  by_cases hw : Part.memory ∈ writes i
  · obtain ⟨x, rfl | rfl⟩ := memory_mem_writes.mp hw
    · have ha := hbcd x rfl
      rcases bcd_mem_cases h with hm | ⟨-, hm⟩ <;> rw [hm]
      exact Memory.read_writeBytes_outside (by simp only [State.base, length_bcdDigits]; omega)
    · have ha := hstore x rfl
      rcases storeRegs_mem_cases h with hm | ⟨-, hm⟩ <;> rw [hm]
      exact Memory.read_writeBytes_outside (by simp only [State.base, State.length_regsUpTo]; omega)
  · rw [exec_mem h hw]

theorem exec_wf {i : Instr} {s t : State} (hs : s.mem.wf = true) (h : exec i s = .next t) : t.mem.wf = true := by
  by_cases hw : Part.memory ∈ writes i
  · obtain ⟨x, rfl | rfl⟩ := memory_mem_writes.mp hw
    · rcases bcd_mem_cases h with hm | ⟨hb, hm⟩ <;> rw [hm]
      · exact hs
      · exact Memory.wf_writeBytes hs (by simp only [State.base, length_bcdDigits]; omega)
    · rcases storeRegs_mem_cases h with hm | ⟨hb, hm⟩ <;> rw [hm]
      · exact hs
      · exact Memory.wf_writeBytes hs (by simp only [State.base, State.length_regsUpTo]; omega)
  · rwa [exec_mem h hw]

/-! ### The call stack -/

/-- What an instruction can do to the stack (R29 to R31). -/
theorem exec_stack_cases {i : Instr} {s t : State} (h : exec i s = .next t) :
    t.stack = s.stack ∨ (∃ nnn, i = .call nnn ∧ s.stack.length < 16 ∧ t.stack = s.stack ++ [s.pc]) ∨
      (i = .ret ∧ ∃ a, s.stack = t.stack ++ [a]) := by
  by_cases hw : Part.stack ∈ writes i
  · rcases stack_mem_writes.mp hw with rfl | ⟨nnn, rfl⟩
    · rcases List.eq_nil_or_concat' s.stack with hnil | ⟨l, a, hl⟩
      · rw [(haltsWith_ret hnil).eq_of_next h]
        exact .inl rfl
      · rw [exec_ret_of_concat hl] at h
        cases h
        exact .inr (.inr ⟨rfl, a, hl⟩)
    · by_cases hlen : s.stack.length < 16
      · rw [exec_call_of_lt nnn hlen] at h
        cases h
        exact .inr (.inl ⟨nnn, rfl, hlen, rfl⟩)
      · rw [(haltsWith_call nnn (by omega)).eq_of_next h]
        exact .inl rfl
  · exact .inl ((exec_frame h).stack hw)

theorem exec_stack_length {i : Instr} {s t : State} (hs : s.stack.length ≤ 16) (h : exec i s = .next t) :
    t.stack.length ≤ 16 := by
  rcases exec_stack_cases h with heq | ⟨-, -, hlen, heq⟩ | ⟨-, a, heq⟩
  · rwa [heq]
  · rw [heq, List.length_append, List.length_singleton]
    omega
  · rw [heq, List.length_append] at hs
    omega

/-! ### The invariant -/

theorem exec_inv {i : Instr} {s t : State} (hs : s.Inv) (h : exec i s = .next t) : t.Inv := by
  obtain ⟨hwf, hlen, hinit⟩ := hs
  exact ⟨exec_wf hwf h, exec_stack_length hlen h, by rwa [exec_env h]⟩

theorem tick_inv {s t : State} {rand : Byte} (hs : s.Inv) (h : tick rand s = .next t) : t.Inv := by
  rcases tick_cases h with ⟨-, rfl⟩ | ⟨r, rfl⟩ | ⟨i, hi⟩
  · exact hs
  · exact hs
  · exact exec_inv (s := (s.beginTick rand).advance) hs hi

theorem applyEvent_inv {e : Event} {s t : State} (hs : s.Inv) (h : applyEvent e s = .next t) : t.Inv := by
  cases e
  case tick rand => exact tick_inv hs h
  case timerTick | keyDown | keyUp | redrawAck =>
    cases h
    exact hs
  case reset =>
    cases h
    obtain ⟨-, -, hinit⟩ := hs
    exact ⟨wf_resetMemory hinit, Nat.zero_le 16, hinit⟩
  case load bytes size =>
    rw [eq_load_of_next h]
    obtain ⟨hwf, hlen, hinit⟩ := hs
    exact ⟨wf_loadMemory hwf bytes size, hlen, hinit⟩

/-- Settles O12: taking an event off the schedule keeps the invariant, and so does every event. -/
theorem stepKeepsTheInvariant : Obligations.StepKeepsTheInvariant := by
  unfold Obligations.StepKeepsTheInvariant
  intro s t hs h
  exact applyEvent_inv (s := s.dropEvent) hs h

end Sys2Proof.Machine
end

section
/-! PROOFS. What an instruction does not read. `Overwrite` puts a value of choice into one of the parts that only few
instructions use; an instruction that does not use the part does the same before and after (R21, R31, R34 to R36). -/

namespace Sys2Proof.Machine

/-- A value for one of the parts of the state that only few instructions use. -/
inductive Overwrite where
  | keys (k : Vector Bool 16)
  | stack (l : List Word)
  | delay (b : Byte)
  | sound (b : Byte)
  | rand (b : Byte)

/-- The state with the part overwritten. -/
def Overwrite.apply (o : Overwrite) (s : State) : State :=
  match o with
  | .keys k => s.setKeys k
  | .stack l => s.setStack l
  | .delay b => s.setDt b
  | .sound b => s.setSt b
  | .rand b => s.setEnv { s.env with rand := b }

/-- The instruction reads or writes the part. -/
def Overwrite.UsedBy (o : Overwrite) (i : Instr) : Prop :=
  match o with
  | .keys _ => ∃ x, i = .skp x ∨ i = .sknp x ∨ i = .waitKey x
  | .stack _ => i = .ret ∨ ∃ nnn, i = .call nnn
  | .delay _ => ∃ x, i = .readDelay x ∨ i = .setDelay x
  | .sound _ => ∃ x, i = .setSound x
  | .rand _ => ∃ x nn, i = .rnd x nn

variable (o : Overwrite) (s : State)

/-! ### The parts that an overwrite leaves -/

@[simp] theorem Overwrite.apply_reg (r : Reg) : (o.apply s).reg r = s.reg r := by cases o <;> rfl
@[simp] theorem Overwrite.apply_i : (o.apply s).i = s.i := by cases o <;> rfl
@[simp] theorem Overwrite.apply_base : (o.apply s).base = s.base := by cases o <;> rfl
@[simp] theorem Overwrite.apply_pc : (o.apply s).pc = s.pc := by cases o <;> rfl
@[simp] theorem Overwrite.apply_mem : (o.apply s).mem = s.mem := by cases o <;> rfl
@[simp] theorem Overwrite.apply_display : (o.apply s).display = s.display := by cases o <;> rfl
@[simp] theorem Overwrite.apply_params : (o.apply s).env.params = s.env.params := by cases o <;> rfl
@[simp] theorem Overwrite.apply_draws : (o.apply s).env.draws = s.env.draws := by cases o <;> rfl
@[simp] theorem Overwrite.apply_regsUpTo (x : Reg) : (o.apply s).regsUpTo x = s.regsUpTo x := by cases o <;> rfl

/-! ### The updates that do not touch the overwritten part -/

@[simp] theorem Overwrite.apply_setReg (x : Reg) (b : Byte) : (o.apply s).setReg x b = o.apply (s.setReg x b) := by
  cases o <;> rfl
@[simp] theorem Overwrite.apply_setI (w : Word) : (o.apply s).setI w = o.apply (s.setI w) := by cases o <;> rfl
@[simp] theorem Overwrite.apply_setPc (w : Word) : (o.apply s).setPc w = o.apply (s.setPc w) := by cases o <;> rfl
@[simp] theorem Overwrite.apply_setMem (m : Memory) : (o.apply s).setMem m = o.apply (s.setMem m) := by
  cases o <;> rfl
@[simp] theorem Overwrite.apply_setDisplay (d : Display) : (o.apply s).setDisplay d = o.apply (s.setDisplay d) := by
  cases o <;> rfl
@[simp] theorem Overwrite.apply_setRedraw (b : Bool) : (o.apply s).setRedraw b = o.apply (s.setRedraw b) := by
  cases o <;> rfl
@[simp] theorem Overwrite.apply_withRegs (bs : List Byte) : (o.apply s).withRegs bs = o.apply (s.withRegs bs) := by
  cases o <;> rfl

@[simp] theorem Overwrite.apply_skip (c : Bool) : (o.apply s).skip c = o.apply (s.skip c) := by
  simp [State.skip_eq]

@[simp] theorem Overwrite.apply_writeBack (x : Reg) (res : Byte) (flag : Bool) :
    writeBack x res flag (o.apply s) = o.apply (writeBack x res flag s) := by
  unfold writeBack
  split <;> simp

theorem Overwrite.raiseFault_apply {o : Overwrite} {s t : State} {r : HaltReason} (h : raiseFault r s = .next t) :
    raiseFault r (o.apply s) = .next (o.apply t) := by
  cases h
  cases o <;> rfl

/-! ### A part that an instruction does not use -/

variable {o s} {i : Instr} {x : Reg}

theorem Overwrite.apply_keys (h : ¬ o.UsedBy i) (hi : i = .skp x ∨ i = .sknp x ∨ i = .waitKey x) :
    (o.apply s).keys = s.keys := by
  cases o
  case keys => exact absurd ⟨x, hi⟩ h
  all_goals rfl

theorem Overwrite.apply_stack (h : ¬ o.UsedBy i) (hi : i = .ret ∨ ∃ nnn, i = .call nnn) :
    (o.apply s).stack = s.stack := by
  cases o
  case stack => exact absurd hi h
  all_goals rfl

theorem Overwrite.apply_setStack (h : ¬ o.UsedBy i) (hi : i = .ret ∨ ∃ nnn, i = .call nnn) (l : List Word) :
    (o.apply s).setStack l = o.apply (s.setStack l) := by
  cases o
  case stack => exact absurd hi h
  all_goals rfl

theorem Overwrite.apply_dt (h : ¬ o.UsedBy (.readDelay x)) : (o.apply s).dt = s.dt := by
  cases o
  case delay => exact absurd ⟨x, .inl rfl⟩ h
  all_goals rfl

theorem Overwrite.apply_setDt (h : ¬ o.UsedBy (.setDelay x)) (b : Byte) :
    (o.apply s).setDt b = o.apply (s.setDt b) := by
  cases o
  case delay => exact absurd ⟨x, .inr rfl⟩ h
  all_goals rfl

theorem Overwrite.apply_setSt (h : ¬ o.UsedBy (.setSound x)) (b : Byte) :
    (o.apply s).setSt b = o.apply (s.setSt b) := by
  cases o
  case sound => exact absurd ⟨x, rfl⟩ h
  all_goals rfl

theorem Overwrite.apply_rand {nn : Byte} (h : ¬ o.UsedBy (.rnd x nn)) : (o.apply s).env.rand = s.env.rand := by
  cases o
  case rand => exact absurd ⟨x, nn, rfl⟩ h
  all_goals rfl

/-- An instruction does the same whatever stands in a part that it does not use. -/
theorem exec_overwrite {t : State} (hu : ¬ o.UsedBy i) (h : exec i s = .next t) :
    exec i (o.apply s) = .next (o.apply t) := by
  cases i
  case cls | jp | jpV0 | seByte | sneByte | seReg | sneReg | ldByte | addByte | ldReg | or | and | xor | addReg | sub |
      shr | subn | shl | ldI | addI | glyph =>
    cases h
    exact congrArg Host.Outcome.next (by simp)
  case rnd =>
    cases h
    exact congrArg Host.Outcome.next (by simp [Overwrite.apply_rand hu])
  case readDelay =>
    cases h
    exact congrArg Host.Outcome.next (by simp [Overwrite.apply_dt hu])
  case setDelay =>
    cases h
    exact congrArg Host.Outcome.next (by simp [Overwrite.apply_setDt hu])
  case setSound =>
    cases h
    exact congrArg Host.Outcome.next (by simp [Overwrite.apply_setSt hu])
  case drw | bcd | storeRegs | loadRegs =>
    simp only [exec, execDrw_eq, execBcd_eq, execStoreRegs_eq, execLoadRegs_eq, Overwrite.apply_base] at h ⊢
    split at h
    case isTrue hb =>
      rw [if_pos hb]
      cases h
      exact congrArg Host.Outcome.next (by simp)
    case isFalse hb =>
      rw [if_neg hb]
      exact Overwrite.raiseFault_apply h
  case ret =>
    simp only [exec, execRet_eq, Overwrite.apply_stack hu (.inl rfl)] at h ⊢
    cases hlast : s.stack.getLast? <;> simp only [hlast] at h ⊢
    case none => exact Overwrite.raiseFault_apply h
    case some a =>
      cases h
      simp [Overwrite.apply_setStack hu]
  case call nnn =>
    simp only [exec, execCall_eq, Overwrite.apply_stack hu (.inr ⟨nnn, rfl⟩)] at h ⊢
    split at h
    case isTrue hlen =>
      rw [if_pos hlen]
      cases h
      simp [Overwrite.apply_setStack hu]
    case isFalse hlen =>
      rw [if_neg hlen]
      exact Overwrite.raiseFault_apply h
  case skp x | sknp x =>
    simp only [exec, execSkp, execSknp, Overwrite.apply_keys (x := x) hu (by simp), Overwrite.apply_reg] at h ⊢
    cases hkey : keyNamed (s.reg x) <;> simp only [hkey] at h ⊢
    case none => exact Overwrite.raiseFault_apply h
    case some k =>
      cases h
      simp
  case waitKey x =>
    simp only [exec, execWaitKey, Overwrite.apply_keys (x := x) hu (by simp)] at h ⊢
    cases hkey : firstKeyDown s.keys <;> simp only [hkey] at h ⊢ <;> cases h <;> simp

end Sys2Proof.Machine
end

section
/-! PROOFS. The parts of the state that belong to few instructions: the keypad (R36), the stack (R31), the timers (R34,
R35) and the random byte (R207, R295). -/

namespace Sys2Proof.Machine

theorem exec_keys {i : Instr} {s t : State} (h : exec i s = .next t) : t.keys = s.keys := (exec_frame h).keys

theorem tick_keys {s t : State} {rand : Byte} (h : tick rand s = .next t) : t.keys = s.keys := by
  rcases tick_cases h with ⟨-, rfl⟩ | ⟨r, rfl⟩ | ⟨i, hi⟩
  · rfl
  · rfl
  · exact (exec_keys hi).trans rfl

/-- Settles O14: no frame names K, and only the three key instructions use it. -/
theorem keypadIsWrittenByTheHostOnly : Obligations.KeypadIsWrittenByTheHostOnly := by
  unfold Obligations.KeypadIsWrittenByTheHostOnly
  refine ⟨fun i s t h => exec_keys h, fun i s t k hi h => exec_overwrite (o := .keys k) ?_ h,
    fun s k rand t => ⟨rfl, rfl, fun h => tick_keys h⟩⟩
  rintro ⟨x, hx⟩
  obtain ⟨hskp, hsknp, hwait⟩ := hi x
  rcases hx with hx | hx | hx
  exacts [hskp hx, hsknp hx, hwait hx]

/-- Settles O17: only 00EE and 2nnn use the stack, one pops and one pushes, and the host's events leave it. -/
theorem stackBelongsToCallAndReturn : Obligations.StackBelongsToCallAndReturn := by
  unfold Obligations.StackBelongsToCallAndReturn
  refine ⟨fun i s t l hret hcall h => exec_overwrite (o := .stack l) ?_ h, fun i s t h => ?_,
    fun e s t hreset htick h => (applyEvent_host_frame hreset htick h).2.1⟩
  · rintro (hi | ⟨nnn, hi⟩)
    · exact hret hi
    · exact hcall nnn hi
  · rcases exec_stack_cases h with heq | ⟨nnn, hi, -, heq⟩ | hret
    · exact .inl heq
    · exact .inr (.inl ⟨nnn, hi, heq⟩)
    · exact .inr (.inr hret)

/-- Settles O19: each timer is in one frame only and used by its own instructions only, whose writes overwrite it. -/
theorem timersBelongToTheirInstructions : Obligations.TimersBelongToTheirInstructions := by
  unfold Obligations.TimersBelongToTheirInstructions
  refine ⟨fun i s t b hset h => ⟨?_, fun hread => exec_overwrite (o := .delay b) ?_ h⟩,
    fun i s t b hset h => ⟨?_, exec_overwrite (o := .sound b) ?_ h⟩, fun x s b => ⟨rfl, rfl⟩⟩
  · exact (exec_frame h).delay (by simp [delay_mem_writes, hset])
  · rintro ⟨x, hi | hi⟩
    · exact hread x hi
    · exact hset x hi
  · exact (exec_frame h).sound (by simp [sound_mem_writes, hset])
  · rintro ⟨x, hi⟩
    exact hset x hi

/-- Settles O20: only Cxnn uses the tick's random byte. -/
theorem randomByteIsReadByRndOnly : Obligations.RandomByteIsReadByRndOnly := by
  unfold Obligations.RandomByteIsReadByRndOnly
  refine fun i s t b hi h => exec_overwrite (o := .rand b) ?_ h
  rintro ⟨x, nn, hx⟩
  exact hi x nn hx

end Sys2Proof.Machine
end

section
/-! PROOFS. Control flow (spec/42_control_flow.md): 00EE, 2nnn, 5xyn, 9xyn and Bnnn, and the key instructions of
spec/45_input_timers.md. -/

namespace Sys2Proof

/-- Categories 5 and 9 decode the same whatever the low nibble (R98). -/
theorem decodeWord_wordXY_seReg (x y : Reg) (n : BitVec 4) : decodeWord (wordXY 0x5 x y n) = .ok (.seReg x y) :=
  decodeWord_of_selectInstr (by simp [selectInstr])

theorem decodeWord_wordXY_sneReg (x y : Reg) (n : BitVec 4) : decodeWord (wordXY 0x9 x y n) = .ok (.sneReg x y) :=
  decodeWord_of_selectInstr (by simp [selectInstr])

namespace Machine

/-- Settles O37: where a top entry is, 00EE is one write of the stack and one of PC. -/
theorem returnPopsTheStack : Obligations.ReturnPopsTheStack := by
  unfold Obligations.ReturnPopsTheStack
  exact ⟨decodeWord_encode .ret, fun s => ⟨fun l a h => ⟨_, exec_ret_of_concat h, rfl, rfl,
    (setStack_unchangedExcept s l).trans (setPc_unchangedExcept _ a)⟩, haltsWith_ret⟩⟩

/-- Settles O39: where an entry is free, 2nnn is one write of the stack and one of PC. -/
theorem callPushesTheAdvancedPc : Obligations.CallPushesTheAdvancedPc := by
  unfold Obligations.CallPushesTheAdvancedPc
  exact fun s nnn => ⟨decodeWord_encode (.call nnn), fun h => ⟨_, exec_call_of_lt nnn h, rfl, zext16_toNat nnn,
    (setStack_unchangedExcept s _).trans (setPc_unchangedExcept _ _)⟩, haltsWith_call nnn⟩

theorem exec_seReg (x y : Reg) (s : State) : exec (.seReg x y) s = .next (s.skip (s.reg x == s.reg y)) := rfl

theorem exec_sneReg (x y : Reg) (s : State) : exec (.sneReg x y) s = .next (s.skip (s.reg x != s.reg y)) := rfl

/-- Settles O41: 5xyn and 9xyn are the skip of R164 on opposite conditions. -/
theorem skipsCompareTwoRegisters : Obligations.SkipsCompareTwoRegisters := by
  unfold Obligations.SkipsCompareTwoRegisters
  refine fun s x y n => ⟨decodeWord_wordXY_seReg x y n, decodeWord_wordXY_sneReg x y n,
    ⟨_, exec_seReg x y s, ?_, skip_unchangedExcept s _⟩, _, exec_sneReg x y s, ?_, skip_unchangedExcept s _⟩
  · simp only [skip_pc_toNat, beq_iff_eq]
  · simp only [skip_pc_toNat, bne_iff_ne, ite_not]

theorem exec_jpV0 (nnn : BitVec 12) (s : State) :
    exec (.jpV0 nnn) s = .next (s.setPc (offsetTarget s.env.params.bnnnMode s.pc nnn (s.reg 0))) := rfl

theorem offsetTarget_postIncrement_toNat (pc : Word) (nnn : BitVec 12) (v0 : Byte) :
    (offsetTarget .postIncrement pc nnn v0).toNat = (pc.toNat + nnn.toNat + v0.toNat) % 0x10000 := by
  simp [offsetTarget]

theorem offsetTarget_absolute_toNat (pc : Word) (nnn : BitVec 12) (v0 : Byte) :
    (offsetTarget .absolute pc nnn v0).toNat = nnn.toNat + v0.toNat := by
  simp only [offsetTarget, zext16_toNat, BitVec.toNat_ofNat]
  omega

/-- Settles O42: Bnnn is one write of PC, to the sum its mode takes. -/
theorem offsetJumpFollowsItsMode : Obligations.OffsetJumpFollowsItsMode := by
  unfold Obligations.OffsetJumpFollowsItsMode
  refine fun s nnn => ⟨decodeWord_encode (.jpV0 nnn), _, exec_jpV0 nnn s, setPc_unchangedExcept s _, ?_, ?_⟩ <;>
    intro hmode <;> rw [State.setPc_pc, hmode]
  · exact offsetTarget_postIncrement_toNat ..
  · exact offsetTarget_absolute_toNat ..

/-- Settles O57: Ex9E and ExA1 are the skip of R164 on opposite conditions. -/
theorem keySkipsTestOneKey : Obligations.KeySkipsTestOneKey := by
  unfold Obligations.KeySkipsTestOneKey
  refine fun s x k => ⟨decodeWord_encode (.skp x), decodeWord_encode (.sknp x), fun hk =>
    ⟨⟨_, exec_skp_of_key hk, ?_, skip_unchangedExcept s _⟩, _, exec_sknp_of_key hk, ?_, skip_unchangedExcept s _⟩⟩
  · simp only [skip_pc_toNat, beq_true]
  · rw [skip_pc_toNat]
    cases s.keys[k] <;> rfl

theorem keyByte_toNat (k : Key) : (keyByte k).toNat = k.val := by
  rw [keyByte, BitVec.toNat_ofNat, Nat.mod_eq_of_lt (by omega)]

/-- Settles O59: the search of Fx0A finds the lowest key that is down, or none is. -/
theorem keyWaitTakesTheLowestKey : Obligations.KeyWaitTakesTheLowestKey := by
  unfold Obligations.KeyWaitTakesTheLowestKey
  refine fun s x => ⟨decodeWord_encode (.waitKey x), fun k hdown hlower => ?_, fun hup => ?_⟩
  · refine ⟨_, exec_waitKey_of_some x (firstKeyDown_eq_some.mpr ⟨hdown, hlower⟩), ?_, s.setReg_pc x _,
      setReg_unchangedExcept s x _⟩
    rw [setReg_reg_self, keyByte_toNat]
  · exact exec_waitKey_of_none x (firstKeyDown_eq_none.mpr hup)

end Machine
end Sys2Proof
end

section
/-! PROOFS. The flag-writing instructions (spec/43_alu.md R190 to R204), with a destination other than VF and with VF,
and Cxnn (R207). -/

namespace Sys2Proof.Machine

theorem exec_or (x y : Reg) (s : State) :
    exec (.or x y) s = .next (writeBack x (s.reg x ||| s.reg y) false s) := rfl

theorem exec_and (x y : Reg) (s : State) :
    exec (.and x y) s = .next (writeBack x (s.reg x &&& s.reg y) false s) := rfl

theorem exec_xor (x y : Reg) (s : State) :
    exec (.xor x y) s = .next (writeBack x (s.reg x ^^^ s.reg y) false s) := rfl

theorem exec_addReg (x y : Reg) (s : State) :
    exec (.addReg x y) s = .next (writeBack x (s.reg x + s.reg y) (carry (s.reg x) (s.reg y)) s) := rfl

theorem exec_sub (x y : Reg) (s : State) :
    exec (.sub x y) s = .next (writeBack x (s.reg x - s.reg y) (noBorrow (s.reg x) (s.reg y)) s) := rfl

theorem exec_shr (x y : Reg) (s : State) :
    exec (.shr x y) s = .next (writeBack x (s.reg y >>> 1) (bitOutRight (s.reg y)) s) := rfl

theorem exec_subn (x y : Reg) (s : State) :
    exec (.subn x y) s = .next (writeBack x (s.reg y - s.reg x) (noBorrow (s.reg y) (s.reg x)) s) := rfl

theorem exec_shl (x y : Reg) (s : State) :
    exec (.shl x y) s = .next (writeBack x (s.reg y <<< 1) (bitOutLeft (s.reg y)) s) := rfl

/-! ### Results and flags as integers -/

theorem flagByte_carry (a b : Byte) : flagByte (carry a b) = if a.toNat + b.toNat > 255 then 1 else 0 := by
  simp [flagByte, carry]

theorem flagByte_noBorrow (a b : Byte) : flagByte (noBorrow a b) = if a.toNat ≥ b.toNat then 1 else 0 := by
  simp [flagByte, noBorrow]

theorem flagByte_bitOutRight_toNat (b : Byte) : (flagByte (bitOutRight b)).toNat = b.toNat % 2 := by
  rcases Nat.mod_two_eq_zero_or_one b.toNat with h | h <;> simp [flagByte, bitOutRight, BitVec.getLsbD, h]

theorem flagByte_bitOutLeft_toNat (b : Byte) : (flagByte (bitOutLeft b)).toNat = b.toNat / 128 := by
  have htop : b.toNat / 128 = 0 ∨ b.toNat / 128 = 1 := by omega
  rcases htop with h | h <;>
    simp [flagByte, bitOutLeft, BitVec.getLsbD, Nat.testBit_eq_decide_div_mod_eq, h]

theorem sub_toNat (a b : Byte) : (a - b).toNat = (a.toNat + 256 - b.toNat) % 256 := by
  rw [BitVec.toNat_sub]
  omega

theorem sub_toNat_int (a b : Byte) : ((a - b).toNat : Int) = ((a.toNat : Int) - b.toNat) % 256 := by
  rw [sub_toNat]
  omega

theorem shiftRight_toNat (b : Byte) : (b >>> 1).toNat = b.toNat / 2 := by
  rw [BitVec.toNat_ushiftRight, Nat.shiftRight_eq_div_pow, pow_one]

theorem shiftLeft_toNat (b : Byte) : (b <<< 1).toNat = 2 * b.toNat % 256 := by
  rw [BitVec.toNat_shiftLeft, Nat.shiftLeft_eq, pow_one, mul_comm]

/-! ### A destination other than VF -/

section
variable {x : Reg} (hx : x ≠ vf) (res : Byte) (flag : Bool) (s : State)
include hx

theorem writeBack_reg_self : (writeBack x res flag s).reg x = res := by
  rw [writeBack_reg_of_ne hx, if_neg hx, if_pos rfl]

theorem writeBack_reg_vf : (writeBack x res flag s).reg vf = flagByte flag := by
  rw [writeBack_reg_of_ne hx, if_pos rfl]

end

/-- Settles O44: the result is VX's new value bit by bit, and the flag is 0. -/
theorem logicInstructionsClearTheFlag : Obligations.LogicInstructionsClearTheFlag := by
  unfold Obligations.LogicInstructionsClearTheFlag
  refine fun s x y => ⟨decodeWord_encode (.or x y), decodeWord_encode (.and x y), decodeWord_encode (.xor x y),
    fun hx => ⟨⟨_, exec_or x y s, fun k _ => ?_, writeBack_reg_vf hx _ _ s, writeBack_pc s x _ _,
      writeBack_unchangedExcept x _ _ s⟩,
    ⟨_, exec_and x y s, fun k _ => ?_, writeBack_reg_vf hx _ _ s, writeBack_pc s x _ _,
      writeBack_unchangedExcept x _ _ s⟩,
    ⟨_, exec_xor x y s, fun k _ => ?_, writeBack_reg_vf hx _ _ s, writeBack_pc s x _ _,
      writeBack_unchangedExcept x _ _ s⟩⟩⟩
  · rw [writeBack_reg_self hx, BitVec.getLsbD_or]
  · rw [writeBack_reg_self hx, BitVec.getLsbD_and]
  · rw [writeBack_reg_self hx, BitVec.getLsbD_xor]

/-- Settles O45: byte addition is addition mod 256, and the flag is the carry of the true sum. -/
theorem addSetsCarry : Obligations.AddSetsCarry := by
  unfold Obligations.AddSetsCarry
  refine fun s x y => ⟨decodeWord_encode (.addReg x y), fun hx => ⟨_, exec_addReg x y s, ?_, ?_, writeBack_pc s x _ _,
    writeBack_unchangedExcept x _ _ s⟩⟩
  · rw [writeBack_reg_self hx, BitVec.toNat_add]
  · rw [writeBack_reg_vf hx, flagByte_carry]

/-- Settles O46: byte subtraction is subtraction mod 256, and the flag compares the operands. -/
theorem subtractionsSetNoBorrow : Obligations.SubtractionsSetNoBorrow := by
  unfold Obligations.SubtractionsSetNoBorrow
  refine fun s x y => ⟨decodeWord_encode (.sub x y), decodeWord_encode (.subn x y), fun hx =>
    ⟨⟨_, exec_sub x y s, ?_, ?_, writeBack_pc s x _ _, writeBack_unchangedExcept x _ _ s⟩,
     ⟨_, exec_subn x y s, ?_, ?_, writeBack_pc s x _ _, writeBack_unchangedExcept x _ _ s⟩⟩⟩
  · rw [writeBack_reg_self hx, sub_toNat_int]
  · rw [writeBack_reg_vf hx, flagByte_noBorrow]
  · rw [writeBack_reg_self hx, sub_toNat_int]
  · rw [writeBack_reg_vf hx, flagByte_noBorrow]

/-- Settles O47: the shifts of a byte are a division and a product mod 256, the flag the bit that leaves VY. -/
theorem shiftsMoveVyByOneBit : Obligations.ShiftsMoveVyByOneBit := by
  unfold Obligations.ShiftsMoveVyByOneBit
  refine fun s x y => ⟨decodeWord_encode (.shr x y), decodeWord_encode (.shl x y), fun hx =>
    ⟨⟨_, exec_shr x y s, ?_, ?_, writeBack_pc s x _ _, writeBack_unchangedExcept x _ _ s⟩,
     ⟨_, exec_shl x y s, ?_, ?_, writeBack_pc s x _ _, writeBack_unchangedExcept x _ _ s⟩⟩⟩
  · rw [writeBack_reg_self hx, shiftRight_toNat]
  · rw [writeBack_reg_vf hx, flagByte_bitOutRight_toNat]
  · rw [writeBack_reg_self hx, shiftLeft_toNat]
  · rw [writeBack_reg_vf hx, flagByte_bitOutLeft_toNat]

/-! ### VF as destination -/

/-- Each of the eight is a write-back to VF whose result and flag have the integers that `vfWriters` lists. -/
theorem exec_of_mem_vfWriters {s : State} {y : Reg} {i : Instr} {res flag : Nat} (h : (i, res, flag) ∈ vfWriters s y) :
    ∃ b c, exec i s = .next (writeBack vf b c s) ∧ b.toNat = res ∧ (flagByte c).toNat = flag := by
  simp only [vfWriters, List.mem_cons, List.not_mem_nil, or_false, Prod.mk.injEq] at h
  rcases h with ⟨rfl, rfl, rfl⟩ | ⟨rfl, rfl, rfl⟩ | ⟨rfl, rfl, rfl⟩ | ⟨rfl, rfl, rfl⟩ | ⟨rfl, rfl, rfl⟩ |
    ⟨rfl, rfl, rfl⟩ | ⟨rfl, rfl, rfl⟩ | ⟨rfl, rfl, rfl⟩
  · exact ⟨_, _, exec_or vf y s, rfl, rfl⟩
  · exact ⟨_, _, exec_and vf y s, rfl, rfl⟩
  · exact ⟨_, _, exec_xor vf y s, rfl, rfl⟩
  · exact ⟨_, _, exec_addReg vf y s, BitVec.toNat_add .., by rw [flagByte_carry, apply_ite BitVec.toNat]; rfl⟩
  · exact ⟨_, _, exec_sub vf y s, sub_toNat .., by rw [flagByte_noBorrow, apply_ite BitVec.toNat]; rfl⟩
  · exact ⟨_, _, exec_shr vf y s, shiftRight_toNat _, flagByte_bitOutRight_toNat _⟩
  · exact ⟨_, _, exec_subn vf y s, sub_toNat .., by rw [flagByte_noBorrow, apply_ite BitVec.toNat]; rfl⟩
  · exact ⟨_, _, exec_shl vf y s, shiftLeft_toNat _, flagByte_bitOutLeft_toNat _⟩

/-- Settles O48: the write-back puts into VF what the order says (R190). -/
theorem flagDestinationFollowsItsOrder : Obligations.FlagDestinationFollowsItsOrder := by
  unfold Obligations.FlagDestinationFollowsItsOrder
  intro s y i res flag h
  obtain ⟨b, c, hexec, hres, hflag⟩ := exec_of_mem_vfWriters h
  refine ⟨_, hexec, writeBack_pc s vf b c, (writeBack_unchangedExcept vf b c s).mono (by simp), ?_, ?_⟩ <;>
    intro horder <;> rw [writeBack_reg_of_vf, if_pos rfl, horder]
  · exact hflag
  · exact hres

theorem exec_rnd (x : Reg) (nn : Byte) (s : State) : exec (.rnd x nn) s = .next (s.setReg x (s.env.rand &&& nn)) := rfl

/-- Settles O49: Cxnn is one write of VX. -/
theorem randomByteIsMasked : Obligations.RandomByteIsMasked := by
  unfold Obligations.RandomByteIsMasked
  refine fun s x nn => ⟨decodeWord_encode (.rnd x nn), _, exec_rnd x nn s, fun k _ => ?_, s.setReg_pc x _,
    setReg_unchangedExcept s x _⟩
  rw [setReg_reg_self, BitVec.getLsbD_and]

end Sys2Proof.Machine
end

section
/-! PROOFS. The index register and memory access (spec/44_index_memory.md): Fx1E, Fx29, Fx33, Fx55 and Fx65, and a store
over the word that is fetched next (R74, R331). -/

namespace Sys2Proof.Machine

theorem exec_addI (x : Reg) (s : State) : exec (.addI x) s =
    .next ((s.setI (BitVec.ofNat 16 (s.i.toNat + (s.reg x).toNat))).setReg vf
      (flagByte (indexOverflow s.i (s.reg x)))) := rfl

/-- Settles O51: Fx1E is one write of I and one of VF, both computed before. -/
theorem addIndexSetsOverflow : Obligations.AddIndexSetsOverflow := by
  unfold Obligations.AddIndexSetsOverflow
  refine fun s x => ⟨decodeWord_encode (.addI x), _, exec_addI x s, ?_, ?_, rfl,
    (setI_unchangedExcept s _).trans (setReg_unchangedExcept _ vf _)⟩
  · rw [State.setReg_i, State.setI_i, BitVec.toNat_ofNat]
  · rw [setReg_reg_self]
    simp [flagByte, indexOverflow]

theorem exec_glyph (x : Reg) (s : State) : exec (.glyph x) s = .next (s.setI (glyphAddress (s.reg x))) := rfl

theorem glyphAddress_toNat (b : Byte) : (glyphAddress b).toNat = 0x050 + 5 * b.toNat := by
  rw [glyphAddress, BitVec.toNat_ofNat, Nat.mod_eq_of_lt (by omega)]

/-- Settles O52: Fx29 is one write of I, which 16 bits hold for every byte. -/
theorem glyphAddressIsFiveTimesVx : Obligations.GlyphAddressIsFiveTimesVx := by
  unfold Obligations.GlyphAddressIsFiveTimesVx
  exact fun s x => ⟨decodeWord_encode (.glyph x), _, exec_glyph x s, glyphAddress_toNat _, rfl,
    setI_unchangedExcept s _⟩

/-- Settles O53: Fx33 is one write of memory, three bytes from I on. -/
theorem bcdStoresThreeDigits : Obligations.BcdStoresThreeDigits := by
  unfold Obligations.BcdStoresThreeDigits
  refine fun s x => ⟨decodeWord_encode (.bcd x), fun hwf hle => ?_⟩
  have digit (k : Nat) (hk : k < (bcdDigits (s.reg x)).length) :
      (s.mem.writeBytes s.base (bcdDigits (s.reg x))).read (s.base + k) = (bcdDigits (s.reg x))[k] :=
    Memory.read_writeBytes_inside hwf (by simp only [State.base, length_bcdDigits]; omega) k hk
  refine ⟨_, exec_bcd_of_le x hle, (congrArg BitVec.toNat (digit 0 (by simp))).trans ?_,
    (congrArg BitVec.toNat (digit 1 (by simp))).trans ?_, (congrArg BitVec.toNat (digit 2 (by simp))).trans ?_,
    fun a ha => ?_, rfl, setMem_unchangedExcept s _⟩
  · exact Nat.mod_eq_of_lt (by omega)
  · exact Nat.mod_eq_of_lt (by omega)
  · exact Nat.mod_eq_of_lt (by omega)
  · exact Memory.read_writeBytes_outside (by simp only [State.base, length_bcdDigits] at ha ⊢; omega)

/-- V0 to VX stand at I to I + x after they are stored there (R234). -/
theorem read_writeBytes_regsUpTo {s : State} {x r : Reg} (hwf : s.mem.wf = true) (hle : s.i.toNat + x.val ≤ 0xFFF)
    (hr : r ≤ x) : (s.mem.writeBytes s.base (s.regsUpTo x)).read (s.base + r.val) = s.reg r := by
  have hlt : r.val < (s.regsUpTo x).length := by
    rw [State.length_regsUpTo]
    exact Nat.lt_succ_of_le hr
  rw [Memory.read_writeBytes_inside hwf (by simp only [State.base, State.length_regsUpTo]; omega) r.val hlt,
    State.getElem_regsUpTo]

/-- I past a block that exists needs no wrap (R234, R235). -/
theorem advanceI_i_toNat {s : State} {x : Reg} (h : s.i.toNat + x.val ≤ 0xFFF) :
    (s.advanceI x).i.toNat = s.i.toNat + x.val + 1 := by
  rw [State.advanceI_eq, State.setI_i, BitVec.toNat_ofNat, Nat.mod_eq_of_lt (by omega)]

/-- Settles O54: Fx55 is one write of memory and one of I. -/
theorem storeRegistersWritesTheBlock : Obligations.StoreRegistersWritesTheBlock := by
  unfold Obligations.StoreRegistersWritesTheBlock
  refine fun s x => ⟨decodeWord_encode (.storeRegs x), fun hwf hle => ⟨_, exec_storeRegs_of_le hle,
    fun r hr => read_writeBytes_regsUpTo hwf hle hr, fun a ha => ?_, advanceI_i_toNat hle, rfl,
    (setMem_unchangedExcept s _).trans (setI_unchangedExcept _ _)⟩⟩
  exact Memory.read_writeBytes_outside (by simp only [State.base, State.length_regsUpTo] at ha ⊢; omega)

/-- Settles O25: PC is within the stored block, and Fx55 leaves it, so the fetch reads the block. -/
theorem storedBytesAreFetchedNext : Obligations.StoredBytesAreFetchedNext := by
  unfold Obligations.StoredBytesAreFetchedNext
  rintro s t x lo ⟨hwf, -, -⟩ hs h hrun hlo hpc
  by_cases hle : s.i.toNat + x.val ≤ 0xFFF
  · rw [exec_storeRegs_of_le hle] at h
    cases h
    have hval : (lo + 1).val = lo.val + 1 := by
      rw [Fin.val_add_one_of_lt']
      omega
    have hfetch := State.fetch_of_le (s := (s.setMem (s.mem.writeBytes s.base (s.regsUpTo x))).advanceI x)
      (by simp only [State.advanceI_eq, State.setI_pc, State.setMem_pc]; omega)
    have hfirst := read_writeBytes_regsUpTo (r := lo) hwf hle (Nat.le_of_succ_le hlo)
    have hsecond := read_writeBytes_regsUpTo (r := lo + 1) hwf hle (Fin.le_def.mpr (hval ▸ hlo))
    simp only [State.advanceI_eq, State.setI_pc, State.setI_mem, State.setMem_pc, State.setMem_mem, hpc] at hfetch
    rw [State.advanceI_eq, hfetch, hfirst, Nat.add_assoc, ← hval, hsecond]
  · rw [(haltsWith_storeRegs (by omega)).eq_of_next h] at hrun
    cases hrun

theorem withRegs_readBytes_reg (s : State) (m : Memory) (a n : Nat) (r : Reg) :
    (s.withRegs (m.readBytes a n)).reg r = if r.val < n then m.read (a + r.val) else s.reg r := by
  rw [State.withRegs_reg]
  split
  · simp [*, Memory.getElem_readBytes]
  · simp [*]

/-- Settles O55: Fx65 is one write of the registers and one of I. -/
theorem loadRegistersReadsTheBlock : Obligations.LoadRegistersReadsTheBlock := by
  unfold Obligations.LoadRegistersReadsTheBlock
  refine fun s x => ⟨decodeWord_encode (.loadRegs x), fun hle => ⟨_, exec_loadRegs_of_le hle, fun r hr => ?_,
    fun r hr => ?_, advanceI_i_toNat hle, rfl,
    ((withRegs_unchangedExcept s _).trans (setI_unchangedExcept _ _)).mono (by simp)⟩⟩
  · rw [State.advanceI_eq, State.setI_reg, withRegs_readBytes_reg, if_pos (Nat.lt_succ_of_le hr)]
  · rw [State.advanceI_eq, State.setI_reg, withRegs_readBytes_reg, if_neg (Nat.not_lt_of_le hr)]

end Sys2Proof.Machine
end

section
/-! PROOFS. Dxyn (spec/41_display.md R141 to R146): the pixels a draw toggles, its flag, and the same draw twice. -/

namespace Sys2Proof

/-- The bit that lands on a pixel when `n` bytes from `base` are drawn is the sprite's bit there: a row past the last
byte has none. -/
theorem landingBit_readBytes_iff (m : Memory) (base ox oy n c r : Nat) :
    landingBit ox oy (m.readBytes base n) c r = true ↔ Machine.spriteBitAt m base ox oy n c r := by
  unfold landingBit Machine.spriteBitAt
  rw [Bool.and_eq_true, decide_eq_true_eq]
  by_cases hr : oy ≤ r ∧ r < oy + n
  · have hk : r - oy < (m.readBytes base n).length := by
      rw [Memory.length_readBytes]
      omega
    rw [List.getElem?_eq_getElem hk, Memory.getElem_readBytes, Option.getD_some]
    tauto
  · by_cases hoy : oy ≤ r
    · have hk : (m.readBytes base n).length ≤ r - oy := by
        rw [Memory.length_readBytes]
        omega
      simp [List.getElem?_eq_none hk, hoy, show ¬ r < oy + n by omega]
    · simp [hoy]

namespace Machine

theorem flagByte_eq_zero_or_one (b : Bool) : flagByte b = 0 ∨ flagByte b = 1 := by
  cases b
  · exact .inl rfl
  · exact .inr rfl

theorem flagByte_eq_one_iff (b : Bool) : flagByte b = 1 ↔ b = true := by
  cases b <;> decide

/-- Where the sprite of Dxyn puts a 1 bit: its origin is (VX mod 64, VY mod 32) (R142). -/
def State.drawnBit (s : State) (x y : Reg) (rows : List Byte) (c r : Nat) : Bool :=
  landingBit (originColumn (s.reg x)) (originRow (s.reg y)) rows c r

theorem State.drawnBit_readBytes_iff (s : State) (x y : Reg) (n c r : Nat) :
    s.drawnBit x y (s.mem.readBytes s.base n) c r = true ↔
      spriteBitAt s.mem s.i.toNat ((s.reg x).toNat % 64) ((s.reg y).toNat % 32) n c r :=
  landingBit_readBytes_iff ..

section
variable (s : State) (x y : Reg) (rows : List Byte)

/-- A draw toggles exactly the pixels under 1 bits (R143). -/
theorem draw_pixel {c r : Nat} (hc : c < 64) (hr : r < 32) :
    (s.draw x y rows).display.pixel c r = (s.display.pixel c r ^^ s.drawnBit x y rows c r) :=
  drawSprite_pixel _ _ _ _ c r hc hr

theorem draw_vf : (s.draw x y rows).reg vf =
    flagByte (drawSprite s.display (originColumn (s.reg x)) (originRow (s.reg y)) rows).2 := by
  rw [State.draw_eq, State.setRedraw_reg, setReg_reg_self]

/-- The flag of a draw: some 1 bit lands on a pixel that was on (R144). -/
theorem draw_vf_eq_one_iff : (s.draw x y rows).reg vf = 1 ↔
    ∃ c r, c < 64 ∧ r < 32 ∧ s.drawnBit x y rows c r = true ∧ s.display.pixel c r = true := by
  rw [draw_vf, flagByte_eq_one_iff, drawSprite_hit]
  rfl

end

/-- Settles O34: the draw of the model's loop, its bits those of the sprite in memory. -/
theorem drawTogglesPixelsAndReportsCollision : Obligations.DrawTogglesPixelsAndReportsCollision := by
  unfold Obligations.DrawTogglesPixelsAndReportsCollision
  refine fun s x y n => ⟨decodeWord_encode (.drw x y n), fun hb => ⟨_, exec_drw_of_exists x y hb,
    fun c r hc hr => ?_, ?_, ?_, rfl, rfl, draw_unchangedExcept s x y _⟩⟩
  · rw [draw_pixel s x y _ hc hr, ← State.drawnBit_readBytes_iff]
    cases s.display.pixel c r <;> cases s.drawnBit x y _ c r <;> simp
  · rw [draw_vf]
    exact flagByte_eq_zero_or_one _
  · rw [draw_vf_eq_one_iff]
    simp only [State.drawnBit_readBytes_iff, and_comm]

/-! ### The same draw twice (R146) -/

section
variable {x y : Reg} (hx : x ≠ vf) (hy : y ≠ vf) (s : State) (rows : List Byte) (pc : Word)
include hx hy

/-- The first draw leaves the second one's origin where it was. -/
theorem drawnBit_after_draw (c r : Nat) :
    ((s.draw x y rows).setPc pc).drawnBit x y rows c r = s.drawnBit x y rows c r := by
  have hframe := draw_unchangedExcept s x y rows
  rw [State.drawnBit, State.setPc_reg, State.setPc_reg, hframe.reg (by simpa using hx), hframe.reg (by simpa using hy)]
  rfl

theorem draw_draw_display : (((s.draw x y rows).setPc pc).draw x y rows).display = s.display := by
  refine Display.ext_pixel fun c r hc hr => ?_
  rw [draw_pixel _ x y rows hc hr, drawnBit_after_draw hx hy, State.setPc_display, draw_pixel s x y rows hc hr,
    Bool.xor_assoc, Bool.xor_self, Bool.xor_false]

/-- The second draw's flag: the first turned a pixel on. -/
theorem draw_draw_vf_eq_one_iff : (((s.draw x y rows).setPc pc).draw x y rows).reg vf = 1 ↔
    ∃ c r, c < 64 ∧ r < 32 ∧ s.display.pixel c r = false ∧ (s.draw x y rows).display.pixel c r = true := by
  rw [draw_vf_eq_one_iff]
  refine exists_congr fun c => exists_congr fun r => and_congr_right fun hc => and_congr_right fun hr => ?_
  rw [drawnBit_after_draw hx hy, State.setPc_display, draw_pixel s x y rows hc hr]
  cases s.display.pixel c r <;> cases s.drawnBit x y rows c r <;> decide

end

/-- Settles O36: the second draw reads the same bytes at the same origin. -/
theorem drawingTwiceRestoresTheDisplay : Obligations.DrawingTwiceRestoresTheDisplay := by
  unfold Obligations.DrawingTwiceRestoresTheDisplay
  intro s t u x y n pc hx hy hb ht hu
  rw [exec_drw_of_exists x y hb] at ht
  cases ht
  rw [exec_drw_of_exists (s := (s.draw x y (s.mem.readBytes s.base n.toNat)).setPc pc) x y hb] at hu
  cases hu
  exact ⟨draw_draw_display hx hy s (s.mem.readBytes s.base n.toNat) pc,
    draw_draw_vf_eq_one_iff hx hy s (s.mem.readBytes s.base n.toNat) pc⟩

end Machine
end Sys2Proof
end
